-- ==== Sys2Proof/Word.lean ====
section
/-! DEFINITION. The word types of the machine (spec 00_scope.md R7: every value is unsigned). -/

namespace Sys2Proof

/-- An 8-bit value: a general register, a timer, a byte of memory, the field `kk`. -/
abbrev Byte := BitVec 8

/-- A 4-bit field of an instruction word: `x`, `y`, `n`, or a key identifier. -/
abbrev Nibble := BitVec 4

/-- The 12-bit address field `nnn`. -/
abbrev Addr12 := BitVec 12

/-- A 16-bit value: an instruction word, `pc`, `I`, a stack entry. -/
abbrev Word16 := BitVec 16

/-- `zext_16` of R7 on the 12-bit field. -/
abbrev Addr12.zext (a : Addr12) : Word16 := BitVec.setWidth 16 a

end Sys2Proof
end

