-- ==== Sys2Proof/Config.lean ====
section
/-! DEFINITION. The parameters of spec 00_scope.md R4, the constant inputs, and the values the
spec leaves free. -/

namespace Sys2Proof

/-- `MEM_SIZE` (R4). -/
abbrev Config.memSize : Nat := 4096
/-- `ENTRY` (R4): where the image is loaded and where the program counter starts. -/
abbrev Config.entry : Nat := 0x200
/-- `ROM_MAX` (R4). -/
abbrev Config.romMax : Nat := 3584
/-- `FONT_BASE` (R4). -/
abbrev Config.fontBase : Nat := 0
/-- `GLYPH_BYTES` (R4). -/
abbrev Config.glyphBytes : Nat := 5
/-- `STACK_CAP` (R4). -/
abbrev Config.stackCap : Nat := 16
/-- `FB_W` (R4). -/
abbrev Config.fbW : Nat := 64
/-- `FB_H` (R4). -/
abbrev Config.fbH : Nat := 32
/-- `CYCLES_PER_TICK` (R4). -/
abbrev Config.cyclesPerTick : Nat := 10

/-- Which of the two bytes of an instruction is the high half. -/
inductive ByteOrder where
  | bigEndian
  | littleEndian
deriving DecidableEq, Repr

/-- Which bit of a sprite row byte is column 0. -/
inductive SpriteOrder where
  | bit7First
  | bit0First
deriving DecidableEq, Repr

/-- The inputs that are constant over a run (R4, R49, R279): the diagnostic bit and the glyph table. -/
structure Config where
  /-- `DIAG`: when set, an invalid instruction emits a report (R267). -/
  diag : Bool
  /-- `FONT`: the contents of addresses 0 to 79 at reset (R72). -/
  font : Vector Byte 80
deriving DecidableEq, Repr

/-- The byte `rnd` of the n-th draw (R181, R283, D21). A free value: nothing constrains it (log 1). -/
opaque Config.rnd : Nat → Byte

/-- `ERR.opcode` of a fetch fault, which R266 leaves unspecified (U6). A free value (log 2). -/
opaque Config.fetchFaultOpcode : Nat → Word16

end Sys2Proof
end

