-- ==== Sys2Proof/Syntax.lean ====
section
/-! DEFINITION. The 35 instructions of spec 30_encoding.md R105, one constructor per row of
spec/opcode_table.json, in the table's order. -/

namespace Sys2Proof

/-- An instruction with the fields its row names (R101, R102). Fields that are decoded and have no effect
(R111) are kept, so that an instruction determines its word. -/
inductive Instr where
  /-- `00E0` -/
  | cls
  /-- `00EE` -/
  | ret
  /-- `0nnn`, other than `00E0` and `00EE`; `nnn` is ignored -/
  | sys (nnn : Addr12)
  /-- `1nnn` -/
  | jp (nnn : Addr12)
  /-- `2nnn` -/
  | call (nnn : Addr12)
  /-- `3xkk` -/
  | seImm (x : Nibble) (kk : Byte)
  /-- `4xkk` -/
  | sneImm (x : Nibble) (kk : Byte)
  /-- `5xy0` -/
  | seReg (x y : Nibble)
  /-- `6xkk` -/
  | ldImm (x : Nibble) (kk : Byte)
  /-- `7xkk` -/
  | addImm (x : Nibble) (kk : Byte)
  /-- `8xy0` -/
  | ldReg (x y : Nibble)
  /-- `8xy1` -/
  | orReg (x y : Nibble)
  /-- `8xy2` -/
  | andReg (x y : Nibble)
  /-- `8xy3` -/
  | xorReg (x y : Nibble)
  /-- `8xy4` -/
  | addReg (x y : Nibble)
  /-- `8xy5` -/
  | sub (x y : Nibble)
  /-- `8xy6`; `y` is ignored -/
  | shr (x y : Nibble)
  /-- `8xy7` -/
  | subn (x y : Nibble)
  /-- `8xyE`; `y` is ignored -/
  | shl (x y : Nibble)
  /-- `9xy0` -/
  | sneReg (x y : Nibble)
  /-- `Annn` -/
  | ldI (nnn : Addr12)
  /-- `Bnnn` -/
  | jpV0 (nnn : Addr12)
  /-- `Cxkk` -/
  | rnd (x : Nibble) (kk : Byte)
  /-- `Dxyn` -/
  | drw (x y n : Nibble)
  /-- `Ex9E` -/
  | skp (x : Nibble)
  /-- `ExA1` -/
  | sknp (x : Nibble)
  /-- `Fx07` -/
  | ldVxDt (x : Nibble)
  /-- `Fx0A` -/
  | ldVxK (x : Nibble)
  /-- `Fx15` -/
  | ldDtVx (x : Nibble)
  /-- `Fx18` -/
  | ldStVx (x : Nibble)
  /-- `Fx1E` -/
  | addI (x : Nibble)
  /-- `Fx29` -/
  | ldF (x : Nibble)
  /-- `Fx33` -/
  | ldB (x : Nibble)
  /-- `Fx55` -/
  | stRegs (x : Nibble)
  /-- `Fx65` -/
  | ldRegs (x : Nibble)
deriving DecidableEq, Repr

end Sys2Proof
end

