-- ==== Sys2Proof/Decode.lean ====
section
/-! DEFINITION. The decoder and the encoder, written from the encoding tables of spec 30_encoding.md. -/

namespace Sys2Proof

/-- Why bytes are no instruction (R106, R108), by name. -/
inductive DecodeError where
  /-- Fewer than two bytes: a word is always two (R100). -/
  | truncated
  /-- `5xyN`, N not 0. -/
  | family5 (n : Nibble)
  /-- `8xyN`, N in 8, 9, A, B, C, D, F. -/
  | family8 (n : Nibble)
  /-- `9xyN`, N not 0. -/
  | family9 (n : Nibble)
  /-- `Exkk`, kk not 9E or A1. -/
  | familyE (kk : Byte)
  /-- `Fxkk`, kk not one of the nine sub-opcodes. -/
  | familyF (kk : Byte)
deriving DecidableEq, Repr

/-! The fields of a word (R101). -/

def fieldFamily (w : Word16) : Nibble := w.extractLsb' 12 4
def fieldX (w : Word16) : Nibble := w.extractLsb' 8 4
def fieldY (w : Word16) : Nibble := w.extractLsb' 4 4
def fieldN (w : Word16) : Nibble := w.extractLsb' 0 4
def fieldKK (w : Word16) : Byte := w.extractLsb' 0 8
def fieldNNN (w : Word16) : Addr12 := w.extractLsb' 0 12

/-- PRESUMED, unsafe (log 7): R73 and D2 take big-endian order from general knowledge and ask for a
marked switch. -/
def wordOrder : ByteOrder := .bigEndian

/-- The instruction word of two consecutive bytes, the one at the lower address first
(20_memory.md R73). The order is the switch `wordOrder` (log 7). -/
def assembleWord (first second : Byte) : Word16 :=
  match wordOrder with
  | .bigEndian => first ++ second
  | .littleEndian => second ++ first

/-- The two bytes of a word in the order memory holds them: the inverse of `assembleWord`. -/
def wordBytes (w : Word16) : Byte × Byte :=
  match wordOrder with
  | .bigEndian => (w.extractLsb' 8 8, w.extractLsb' 0 8)
  | .littleEndian => (w.extractLsb' 0 8, w.extractLsb' 8 8)

/-- Family 0 (R104): the two fixed words first, every other word is `0nnn`. -/
def decode0 (w : Word16) : Instr :=
  if w = 0x00E0#16 then .cls
  else if w = 0x00EE#16 then .ret
  else .sys (fieldNNN w)

/-- Family 8, by the sub-opcode `n` (R104). -/
def decode8 (w : Word16) : Except DecodeError Instr :=
  match (fieldN w).toNat with
  | 0x0 => .ok (.ldReg (fieldX w) (fieldY w))
  | 0x1 => .ok (.orReg (fieldX w) (fieldY w))
  | 0x2 => .ok (.andReg (fieldX w) (fieldY w))
  | 0x3 => .ok (.xorReg (fieldX w) (fieldY w))
  | 0x4 => .ok (.addReg (fieldX w) (fieldY w))
  | 0x5 => .ok (.sub (fieldX w) (fieldY w))
  | 0x6 => .ok (.shr (fieldX w) (fieldY w))
  | 0x7 => .ok (.subn (fieldX w) (fieldY w))
  | 0xE => .ok (.shl (fieldX w) (fieldY w))
  | _ => .error (.family8 (fieldN w))

/-- Family E, by the low byte (R104). -/
def decodeE (w : Word16) : Except DecodeError Instr :=
  match (fieldKK w).toNat with
  | 0x9E => .ok (.skp (fieldX w))
  | 0xA1 => .ok (.sknp (fieldX w))
  | _ => .error (.familyE (fieldKK w))

/-- Family F, by the low byte (R104). -/
def decodeF (w : Word16) : Except DecodeError Instr :=
  match (fieldKK w).toNat with
  | 0x07 => .ok (.ldVxDt (fieldX w))
  | 0x0A => .ok (.ldVxK (fieldX w))
  | 0x15 => .ok (.ldDtVx (fieldX w))
  | 0x18 => .ok (.ldStVx (fieldX w))
  | 0x1E => .ok (.addI (fieldX w))
  | 0x29 => .ok (.ldF (fieldX w))
  | 0x33 => .ok (.ldB (fieldX w))
  | 0x55 => .ok (.stRegs (fieldX w))
  | 0x65 => .ok (.ldRegs (fieldX w))
  | _ => .error (.familyF (fieldKK w))

/-- The decode procedure of R104, on every word. -/
def decode (w : Word16) : Except DecodeError Instr :=
  match (fieldFamily w).toNat with
  | 0x0 => .ok (decode0 w)
  | 0x1 => .ok (.jp (fieldNNN w))
  | 0x2 => .ok (.call (fieldNNN w))
  | 0x3 => .ok (.seImm (fieldX w) (fieldKK w))
  | 0x4 => .ok (.sneImm (fieldX w) (fieldKK w))
  | 0x5 => if fieldN w = 0 then .ok (.seReg (fieldX w) (fieldY w)) else .error (.family5 (fieldN w))
  | 0x6 => .ok (.ldImm (fieldX w) (fieldKK w))
  | 0x7 => .ok (.addImm (fieldX w) (fieldKK w))
  | 0x8 => decode8 w
  | 0x9 => if fieldN w = 0 then .ok (.sneReg (fieldX w) (fieldY w)) else .error (.family9 (fieldN w))
  | 0xA => .ok (.ldI (fieldNNN w))
  | 0xB => .ok (.jpV0 (fieldNNN w))
  | 0xC => .ok (.rnd (fieldX w) (fieldKK w))
  | 0xD => .ok (.drw (fieldX w) (fieldY w) (fieldN w))
  | 0xE => decodeE w
  | _ => decodeF w

/-- Decoding on any bytes: the first two are one word (R100), the rest is handed back. -/
def decodeBytes : List Byte → Except DecodeError (Instr × List Byte)
  | b0 :: b1 :: rest => (decode (assembleWord b0 b1)).map (fun i => (i, rest))
  | _ => .error .truncated

/-! The five layouts of R102, as words. -/

/-- `NNN` -/
def layoutNNN (family : Nibble) (nnn : Addr12) : Word16 := family ++ nnn
/-- `XKK`, and `XFN` with the low byte fixed -/
def layoutXKK (family x : Nibble) (kk : Byte) : Word16 := family ++ (x ++ kk)
/-- `XYN` -/
def layoutXYN (family x y n : Nibble) : Word16 := family ++ (x ++ (y ++ n))

/-- The word of an instruction, from the pattern column of R105. -/
def encode : Instr → Word16
  | .cls => 0x00E0
  | .ret => 0x00EE
  | .sys nnn => layoutNNN 0x0 nnn
  | .jp nnn => layoutNNN 0x1 nnn
  | .call nnn => layoutNNN 0x2 nnn
  | .seImm x kk => layoutXKK 0x3 x kk
  | .sneImm x kk => layoutXKK 0x4 x kk
  | .seReg x y => layoutXYN 0x5 x y 0x0
  | .ldImm x kk => layoutXKK 0x6 x kk
  | .addImm x kk => layoutXKK 0x7 x kk
  | .ldReg x y => layoutXYN 0x8 x y 0x0
  | .orReg x y => layoutXYN 0x8 x y 0x1
  | .andReg x y => layoutXYN 0x8 x y 0x2
  | .xorReg x y => layoutXYN 0x8 x y 0x3
  | .addReg x y => layoutXYN 0x8 x y 0x4
  | .sub x y => layoutXYN 0x8 x y 0x5
  | .shr x y => layoutXYN 0x8 x y 0x6
  | .subn x y => layoutXYN 0x8 x y 0x7
  | .shl x y => layoutXYN 0x8 x y 0xE
  | .sneReg x y => layoutXYN 0x9 x y 0x0
  | .ldI nnn => layoutNNN 0xA nnn
  | .jpV0 nnn => layoutNNN 0xB nnn
  | .rnd x kk => layoutXKK 0xC x kk
  | .drw x y n => layoutXYN 0xD x y n
  | .skp x => layoutXKK 0xE x 0x9E
  | .sknp x => layoutXKK 0xE x 0xA1
  | .ldVxDt x => layoutXKK 0xF x 0x07
  | .ldVxK x => layoutXKK 0xF x 0x0A
  | .ldDtVx x => layoutXKK 0xF x 0x15
  | .ldStVx x => layoutXKK 0xF x 0x18
  | .addI x => layoutXKK 0xF x 0x1E
  | .ldF x => layoutXKK 0xF x 0x29
  | .ldB x => layoutXKK 0xF x 0x33
  | .stRegs x => layoutXKK 0xF x 0x55
  | .ldRegs x => layoutXKK 0xF x 0x65

/-- The two bytes of an instruction as memory holds them. -/
def encodeBytes (i : Instr) : List Byte := [(wordBytes (encode i)).1, (wordBytes (encode i)).2]

/-- The word whose bits are `w`, of which the table gives `nbits`; the bits above are 0. -/
def tableWord (nbits w : Nat) : Word16 := BitVec.ofNat 16 (w % 2 ^ nbits)

/-- The instruction the decoder reads from the table's bits, laid out as the hardware stores them. -/
def decodeTableWord (nbits w : Nat) : Option Instr :=
  match decodeBytes [(wordBytes (tableWord nbits w)).1, (wordBytes (tableWord nbits w)).2] with
  | .ok (i, _) => some i
  | .error _ => none

/-! The opcode map of R105 as data: the second description that decoding is held against. -/

/-- One row of R105. -/
structure OpcodeRow where
  mnemonic : String
  mask : Word16
  pattern : Word16
deriving DecidableEq, Repr

/-- `W AND mask = match` (R105). -/
def OpcodeRow.selects (r : OpcodeRow) (w : Word16) : Bool := w &&& r.mask == r.pattern

/-- The map's rows in its order; "the two fixed words `00E0` and `00EE` are taken first". -/
def opcodeMap : List OpcodeRow :=
  [⟨"CLS", 0xFFFF, 0x00E0⟩, ⟨"RET", 0xFFFF, 0x00EE⟩, ⟨"SYS", 0xF000, 0x0000⟩,
   ⟨"JP", 0xF000, 0x1000⟩, ⟨"CALL", 0xF000, 0x2000⟩, ⟨"SE_IMM", 0xF000, 0x3000⟩,
   ⟨"SNE_IMM", 0xF000, 0x4000⟩, ⟨"SE_REG", 0xF00F, 0x5000⟩, ⟨"LD_IMM", 0xF000, 0x6000⟩,
   ⟨"ADD_IMM", 0xF000, 0x7000⟩] ++
  [⟨"LD_REG", 0xF00F, 0x8000⟩, ⟨"OR", 0xF00F, 0x8001⟩, ⟨"AND", 0xF00F, 0x8002⟩,
   ⟨"XOR", 0xF00F, 0x8003⟩, ⟨"ADD_REG", 0xF00F, 0x8004⟩, ⟨"SUB", 0xF00F, 0x8005⟩,
   ⟨"SHR", 0xF00F, 0x8006⟩, ⟨"SUBN", 0xF00F, 0x8007⟩, ⟨"SHL", 0xF00F, 0x800E⟩,
   ⟨"SNE_REG", 0xF00F, 0x9000⟩, ⟨"LD_I", 0xF000, 0xA000⟩, ⟨"JP_V0", 0xF000, 0xB000⟩] ++
  [⟨"RND", 0xF000, 0xC000⟩, ⟨"DRW", 0xF000, 0xD000⟩, ⟨"SKP", 0xF0FF, 0xE09E⟩,
   ⟨"SKNP", 0xF0FF, 0xE0A1⟩, ⟨"LD_VX_DT", 0xF0FF, 0xF007⟩, ⟨"LD_VX_K", 0xF0FF, 0xF00A⟩,
   ⟨"LD_DT_VX", 0xF0FF, 0xF015⟩, ⟨"LD_ST_VX", 0xF0FF, 0xF018⟩, ⟨"ADD_I", 0xF0FF, 0xF01E⟩,
   ⟨"LD_F", 0xF0FF, 0xF029⟩, ⟨"LD_B", 0xF0FF, 0xF033⟩, ⟨"ST_REGS", 0xF0FF, 0xF055⟩,
   ⟨"LD_REGS", 0xF0FF, 0xF065⟩]

/-- The row's mnemonic, as R105 spells it. -/
def mnemonic : Instr → String
  | .cls => "CLS"
  | .ret => "RET"
  | .sys _ => "SYS"
  | .jp _ => "JP"
  | .call _ => "CALL"
  | .seImm _ _ => "SE_IMM"
  | .sneImm _ _ => "SNE_IMM"
  | .seReg _ _ => "SE_REG"
  | .ldImm _ _ => "LD_IMM"
  | .addImm _ _ => "ADD_IMM"
  | .ldReg _ _ => "LD_REG"
  | .orReg _ _ => "OR"
  | .andReg _ _ => "AND"
  | .xorReg _ _ => "XOR"
  | .addReg _ _ => "ADD_REG"
  | .sub _ _ => "SUB"
  | .shr _ _ => "SHR"
  | .subn _ _ => "SUBN"
  | .shl _ _ => "SHL"
  | .sneReg _ _ => "SNE_REG"
  | .ldI _ => "LD_I"
  | .jpV0 _ => "JP_V0"
  | .rnd _ _ => "RND"
  | .drw _ _ _ => "DRW"
  | .skp _ => "SKP"
  | .sknp _ => "SKNP"
  | .ldVxDt _ => "LD_VX_DT"
  | .ldVxK _ => "LD_VX_K"
  | .ldDtVx _ => "LD_DT_VX"
  | .ldStVx _ => "LD_ST_VX"
  | .addI _ => "ADD_I"
  | .ldF _ => "LD_F"
  | .ldB _ => "LD_B"
  | .stRegs _ => "ST_REGS"
  | .ldRegs _ => "LD_REGS"

end Sys2Proof
end

