-- ==== Sys2Proof/Machine/Font.lean ====
section
/-! DEFINITION. The default settings of the open parameters. -/

namespace Sys2Proof

/-- The conventional glyph table that R72 takes as the default of `FONT`. PRESUMED, unsafe for a claim
about glyph bytes at reset (log 6): the bytes are from general knowledge (D3). -/
def Config.conventionalFont : Vector Byte 80 :=
  #v[0xF0, 0x90, 0x90, 0x90, 0xF0,  0x20, 0x60, 0x20, 0x20, 0x70,
     0xF0, 0x10, 0xF0, 0x80, 0xF0,  0xF0, 0x10, 0xF0, 0x10, 0xF0,
     0x90, 0x90, 0xF0, 0x10, 0x10,  0xF0, 0x80, 0xF0, 0x10, 0xF0,
     0xF0, 0x80, 0xF0, 0x90, 0xF0,  0xF0, 0x10, 0x20, 0x40, 0x40,
     0xF0, 0x90, 0xF0, 0x90, 0xF0,  0xF0, 0x90, 0xF0, 0x10, 0xF0,
     0xF0, 0x90, 0xF0, 0x90, 0x90,  0xE0, 0x90, 0xE0, 0x90, 0xE0,
     0xF0, 0x80, 0x80, 0x80, 0xF0,  0xE0, 0x90, 0x90, 0x90, 0xE0,
     0xF0, 0x80, 0xF0, 0x80, 0xF0,  0xF0, 0x80, 0xF0, 0x80, 0x80]

/-- The defaults of the open parameters (92, "Open parameters"): `DIAG` 0, the conventional `FONT`. -/
def Config.default : Config := ⟨false, Config.conventionalFont⟩

end Sys2Proof
end

