-- ==== Sys2Proof/Machine/State.lean ====
section
/-! DEFINITION. The state of the machine (spec 10_state.md R30), as plain data, and its value after reset. -/

namespace Sys2Proof.Machine

/-- The three fatal exceptions (60_exceptions.md R260). -/
inductive FatalKind where
  /-- Raised by `2nnn` with 16 entries held (R261). -/
  | stackOverflow
  /-- Raised by `00EE` with no entry held (R262). -/
  | stackUnderflow
  /-- Raised by an access outside 0 to 4095 (R264). -/
  | outOfBounds
deriving DecidableEq, Repr

/-- The cause of `Halted(cause)` (R44): a fatal exception or a stop request. -/
inductive HaltCause where
  | fatal (kind : FatalKind)
  | stopped
deriving DecidableEq, Repr

/-- `RUN` (R44). -/
inductive RunState where
  | running
  | waitKey
  | halted (cause : HaltCause)
deriving DecidableEq, Repr

/-- `ERR` (R48, R266). -/
structure ErrorRecord where
  /-- The exception's kind; its code is `FatalKind.code`. -/
  kind : FatalKind
  /-- `pc0`, the address the faulting instruction was fetched from. -/
  addr : Word16
  /-- `IR`, the faulting word. -/
  opcode : Word16
  /-- The offending memory address, for `outOfBounds`. -/
  maddr : Option Nat
deriving DecidableEq, Repr

/-- The framebuffer (R39): row `y`, then column `x`. -/
abbrev Framebuffer := Vector (Vector Bool 64) 32

/-- A set of pixels, held as its grid, so that it has no order (R222, D26; log 16). -/
abbrev PixelSet := Vector (Vector Bool 64) 32

/-- What the core emits to the host (60_exceptions.md R285). -/
inductive Event where
  /-- `Paint(S, w, h)` (R275, R278). -/
  | paint (lit : PixelSet) (width height : Nat)
  /-- `ErrorReport(ERR)` (R265). -/
  | errorReport (record : ErrorRecord)
  /-- `InvalidReport(addr, opcode)` (R267). -/
  | invalidReport (addr opcode : Word16)
deriving DecidableEq, Repr

/-- A step of the host (R285). -/
inductive EnvStep where
  /-- `KeyDown(k)` (R276). -/
  | keyDown (k : Nibble)
  /-- `KeyUp(k)` (R276). -/
  | keyUp (k : Nibble)
  /-- `StopReq` (R270). -/
  | stopReq
  /-- `Reset(rom)` (70_reset_and_hazards.md R310). -/
  | reset (rom : List Byte)
  /-- The host takes the oldest event not yet taken (20_memory.md R85). -/
  | takeEvent
deriving DecidableEq, Repr

/-- Who moves next (40_cycle.md R136: host steps interleave with core steps). -/
inductive Turn where
  | core
  | host (e : EnvStep)
deriving DecidableEq, Repr

/-- Memory: the cells that differ from what an unlisted address reads as, by rising address. -/
abbrev Memory := List Host.Cell

/-- The state of the machine: the elements of R30, then the model's own fields. -/
structure State where
  /-- `V[0..15]` (R31); `V[15]` is VF (R32). -/
  v : Vector Byte 16
  /-- `I` (R33). -/
  i : Word16
  /-- The program counter (R34). -/
  pc : Word16
  /-- `DT` (R35). -/
  dt : Byte
  /-- `ST` (R36). -/
  st : Byte
  /-- `SP`, 0 to 16 (R37). -/
  sp : Fin 17
  /-- `STACK[0..15]`, entry 0 the oldest (R37). -/
  stack : Vector Word16 16
  /-- `MEM` (R38). -/
  mem : Memory
  /-- `FB` (R39). -/
  fb : Framebuffer
  /-- `DIRTY` (R40). -/
  dirty : Bool
  /-- `KEY[0..15]` (R41). -/
  key : Vector Bool 16
  /-- `LASTKEY` (R42). -/
  lastKey : Nibble
  /-- `RUN` (R44). -/
  run : RunState
  /-- `IR` (R45). -/
  ir : Word16
  /-- `CYC`, 0 to 9 (R46). -/
  cyc : Fin 10
  /-- `STOPREQ` (R47). -/
  stopReq : Bool
  /-- `ERR` (R48). -/
  err : Option ErrorRecord
  /-- The model's own: `DIAG` and `FONT`, constant over a run (R49; log 6). -/
  config : Config
  /-- The model's own: how many free values have been drawn (log 3). -/
  draws : Nat
  /-- The model's own: the events emitted and not yet taken by the host, oldest first (R285; log 5). -/
  outbox : List Event
  /-- The model's own: the turns still to be taken; when it is empty the core moves (R136; log 4). -/
  schedule : List Turn
deriving DecidableEq, Repr

/-- Why a step stops the machine. -/
inductive Fault where
  /-- Raised by the core's step when `RUN = Halted(cause)`: the core has no step there (R130, R271).
  Safe: the model stops where the hardware does (log 11). -/
  | halted (cause : HaltCause)
deriving DecidableEq, Repr

/-- Why the model declines a step. -/
inductive Refusal where
  /-- Raised by an arm of `exec` for an instruction without a meaning; no arm does. Safe. -/
  | notModelled (mnemonic : String)
  /-- Raised by `Reset` with an image longer than 3584 bytes: "outside this spec: the model refuses it"
  (R284). Safe (log 15). -/
  | imageTooLong (length : Nat)
deriving DecidableEq, Repr

/-- The state that `Reset` of the empty image leaves (R310). DESIGN CHOICE, unsafe (log 9): `stack`,
`lastKey` and `ir`, which the spec leaves unspecified, are 0. `config` is the spec's default (log 6). -/
def State.reset : State where
  v := Vector.replicate 16 0
  i := 0
  pc := BitVec.ofNat 16 Config.entry
  dt := 0
  st := 0
  sp := 0
  stack := Vector.replicate 16 0
  mem := []
  fb := Vector.replicate 32 (Vector.replicate 64 false)
  dirty := false
  key := Vector.replicate 16 false
  lastKey := 0
  run := .running
  ir := 0
  cyc := 0
  stopReq := false
  err := none
  config := Config.default
  draws := 0
  outbox := []
  schedule := []

end Sys2Proof.Machine
end

