-- ==== Sys2Proof/Machine/Ops.lean ====
section
/-! DEFINITION. The named operations over memory, registers, stack and framebuffer, and the taking of an
exception. -/

namespace Sys2Proof.Machine

/-! Memory (spec 20_memory.md). -/

/-- What an unlisted address reads as: the reset contents with no image, `FONT` at 0 to 79 and 0
elsewhere (R72, R310). -/
def background (c : Config) (a : Nat) : Byte := if h : a < 80 then c.font[a] else 0

/-- The byte at an address. -/
def Memory.read (c : Config) : Memory → Nat → Byte
  | [], a => background c a
  | (b, v) :: m, a => if a = b then v else Memory.read c m a

/-- Put a cell at its place in the rising order, over an older cell of the same address. -/
def Memory.insertCell (a : Nat) (v : Byte) : Memory → Memory
  | [] => [(a, v)]
  | (b, u) :: m =>
    if a < b then (a, v) :: (b, u) :: m
    else if a = b then (a, v) :: m
    else (b, u) :: Memory.insertCell a v m

/-- Take every cell of an address out. -/
def Memory.eraseCell (a : Nat) : Memory → Memory
  | [] => []
  | (b, u) :: m => if a = b then Memory.eraseCell a m else (b, u) :: Memory.eraseCell a m

/-- Store a byte, keeping the canonical form. -/
def Memory.write (c : Config) (m : Memory) (a : Nat) (v : Byte) : Memory :=
  if v = background c a then Memory.eraseCell a m else Memory.insertCell a v m

/-- The canonical form: addresses strictly rising and inside Memory, and no cell that holds what its
address reads as when unlisted. -/
abbrev Memory.wf (c : Config) (m : Memory) : Prop :=
  (m.map Prod.fst).Pairwise (· < ·) ∧ ∀ cell ∈ m, cell.1 < Config.memSize ∧ cell.2 ≠ background c cell.1

/-- `MEM[a]`. -/
def State.peek (s : State) (a : Nat) : Byte := Memory.read s.config s.mem a

/-- `MEM[a] <- b`, without the bounds check. -/
def State.poke (s : State) (a : Nat) (b : Byte) : State :=
  { s with mem := Memory.write s.config s.mem a b }

/-- `MemRead` of R71; the error is the offending address. -/
def memRead (s : State) (a : Nat) : Except Nat Byte :=
  if a < Config.memSize then .ok (s.peek a) else .error a

/-- `MemWrite` of R71; the error is the offending address. -/
def memWrite (s : State) (a : Nat) (b : Byte) : Except Nat State :=
  if a < Config.memSize then .ok (s.poke a b) else .error a

/-- The bytes at `a`, `a + 1`, …, in ascending order. -/
def readBytes (s : State) (a : Nat) : Nat → List Byte
  | 0 => []
  | n + 1 => s.peek a :: readBytes s (a + 1) n

/-- Store bytes at `a`, `a + 1`, …, in ascending order. -/
def writeBytes (a : Nat) : List Byte → State → State
  | [], s => s
  | b :: bs, s => writeBytes (a + 1) bs (s.poke a b)

/-! Registers (spec 10_state.md). -/

/-- `V[x]` (R31). -/
def State.getV (s : State) (x : Nibble) : Byte := s.v[x.toNat]'x.isLt

/-- `V[x] <- b` (R31). -/
def State.setV (s : State) (x : Nibble) (b : Byte) : State := { s with v := s.v.set x.toNat b x.isLt }

/-- `VF`, the register 15 (R32). -/
abbrev vF : Nibble := 0xF

/-- `I <- w` (R33). -/
def State.setI (s : State) (w : Word16) : State := { s with i := w }

/-- `pc <- w` (R34). -/
def State.setPc (s : State) (w : Word16) : State := { s with pc := w }

/-- `DT <- b` (R35). -/
def State.setDt (s : State) (b : Byte) : State := { s with dt := b }

/-- `ST <- b` (R36). -/
def State.setSt (s : State) (b : Byte) : State := { s with st := b }

/-- `RUN <- r` (R44). -/
def State.setRun (s : State) (r : RunState) : State := { s with run := r }

/-- Emit an event to the host (R285). -/
def State.emit (s : State) (e : Event) : State := { s with outbox := s.outbox ++ [e] }

/-- Draw a free value: the counter moves on (log 3). -/
def State.drawn (s : State) : State := { s with draws := s.draws + 1 }

/-- `V[0] <- ` the byte at `base`, …, for `count` registers (43_index_memory.md R205). -/
def loadRegisters (base : Nat) : Nat → State → State
  | 0, s => s
  | k + 1, s => (loadRegisters base k s).setV (BitVec.ofNat 4 k) (s.peek (base + k))

/-! Call stack (R37). -/

/-- The entry `STACK[k]`, 0 for an index that does not exist. -/
def State.stackEntry (s : State) (k : Nat) : Word16 := s.stack[k]?.getD 0

/-- `Push(v)`; none when 16 entries are held. -/
def push (v : Word16) (s : State) : Option State :=
  if h : s.sp.val < 16 then
    some { s with stack := s.stack.set s.sp.val v h, sp := ⟨s.sp.val + 1, by omega⟩ }
  else none

/-- `Pop()`, the state and the popped address; none when no entry is held. -/
def pop (s : State) : Option (State × Word16) :=
  if h : 0 < s.sp.val then
    have h' := s.sp.isLt
    some ({ s with sp := ⟨s.sp.val - 1, by omega⟩ }, s.stack[s.sp.val - 1]'(by omega))
  else none

/-! Framebuffer (44_display.md R222). -/

/-- `FB[y][x]`, the coordinates reduced modulo the grid. -/
def pixel (fb : Framebuffer) (px py : Nat) : Bool :=
  (fb[py % 32]'(Nat.mod_lt _ (by decide)))[px % 64]'(Nat.mod_lt _ (by decide))

/-- `SetPixel(px, py)`: the toggled grid, and whether the pixel was on. -/
def setPixel (fb : Framebuffer) (px py : Nat) : Framebuffer × Bool :=
  (fb.set (py % 32)
    ((fb[py % 32]'(Nat.mod_lt _ (by decide))).set (px % 64) (!pixel fb px py) (Nat.mod_lt _ (by decide)))
    (Nat.mod_lt _ (by decide)),
   pixel fb px py)

/-- `Clear()`. -/
def clearFb : Framebuffer := Vector.replicate 32 (Vector.replicate 64 false)

/-- `LitPixels()`: the set of lit pixels, by value. -/
def litPixels (fb : Framebuffer) : PixelSet := fb

/-- PRESUMED, unsafe (log 8): R221 and D4 take bit 7 as the leftmost column from general knowledge. -/
def spriteOrder : SpriteOrder := .bit7First

/-- Bit `c` of a sprite row, counted from the left edge (R221; the switch of D4, log 8). -/
def spriteBit (b : Byte) (c : Nat) : Bool :=
  match spriteOrder with
  | .bit7First => b.getLsbD (7 - c)
  | .bit0First => b.getLsbD c

/-- Column `c` of a sprite row at `(px, py)`: a set bit toggles its pixel and may collide (R221). -/
def drawBit (b : Byte) (px py : Nat) (acc : Framebuffer × Bool) (c : Nat) : Framebuffer × Bool :=
  if spriteBit b c then ((setPixel acc.1 (px + c) py).1, acc.2 || (setPixel acc.1 (px + c) py).2) else acc

/-- One row of a sprite, columns left to right (R221). -/
def drawRow (b : Byte) (px py : Nat) (acc : Framebuffer × Bool) : Framebuffer × Bool :=
  (List.range 8).foldl (drawBit b px py) acc

/-- The rows of a sprite, top to bottom; the second component says whether any pixel went off (R221). -/
def drawSprite (px : Nat) : Nat → List Byte → Framebuffer × Bool → Framebuffer × Bool
  | _, [], acc => acc
  | py, b :: bs, acc => drawSprite px (py + 1) bs (drawRow b px py acc)

/-- The framebuffer becomes `fb` and is marked dirty (R40, R220, R221). -/
def State.setFb (s : State) (fb : Framebuffer) : State := { s with fb := fb, dirty := true }

/-! Keys (45_keys_timers.md R246, 10_state.md R43). -/

/-- `IsPressed(k)` for any byte: an identifier above 15 reads as not pressed. -/
def isPressed (s : State) (k : Byte) : Bool := if h : k.toNat < 16 then s.key[k.toNat] else false

/-- `popcount(KEY)`, the number of held keys. -/
def heldCount (s : State) : Nat := s.key.toList.count true

/-! Exceptions (60_exceptions.md). -/

/-- The cause codes of R260. -/
def FatalKind.code : FatalKind → Nat
  | .stackOverflow => 1
  | .stackUnderflow => 2
  | .outOfBounds => 3

/-- The code of the recoverable exception (R260). -/
def invalidInstructionCode : Nat := 4

/-- `Fatal(kind, maddr)` of R265: the record is written, the core halts, the record is reported. -/
def fatal (kind : FatalKind) (pc0 opcode : Word16) (maddr : Option Nat) (s : State) : State :=
  { s with
    err := some ⟨kind, pc0, opcode, maddr⟩
    run := .halted (.fatal kind)
    outbox := s.outbox ++ [.errorReport ⟨kind, pc0, opcode, maddr⟩] }

/-- A fatal exception raised by an instruction. Inside an instruction `pc` holds `pc0 + 2` (R132) and `IR`
the word, so `pc0` is `pc - 2` (log 18). -/
def raiseFatal (kind : FatalKind) (maddr : Option Nat) (s : State) : State :=
  fatal kind (s.pc - 2) s.ir maddr s

/-- A fetch fault (R131, R266): nothing is written but what `Fatal` writes; `pc` is `pc0`, and the
record's opcode is a free value (log 2). -/
def fetchFault (maddr : Nat) (s : State) : State :=
  fatal .outOfBounds s.pc (Config.fetchFaultOpcode s.draws) (some maddr) s.drawn

/-- The recoverable exception, up to the completion of its cycle (R267): a report when `DIAG` is set,
and nothing else. -/
def invalidInstruction (pc0 w : Word16) (s : State) : State :=
  if s.config.diag then s.emit (.invalidReport pc0 w) else s

end Sys2Proof.Machine
end

