-- ==== Sys2Proof/Machine/Operands.lean ====
section
/-! DEFINITION. The operand forms of spec 30_encoding.md R103 and the addresses of 20_memory.md R77. -/

namespace Sys2Proof.Machine

/-- A register operand zero-extended to 16 bits. -/
def zextByte (b : Byte) : Word16 := b.setWidth 16

/-- `I + k`, an unbounded integer: not wrapped to 16 bits and not reduced (R77, R206). -/
def effAddr (s : State) (k : Nat) : Nat := s.i.toNat + k

/-- The check that an instruction of `count` consecutive bytes from `I` makes before its first write
(40_cycle.md R139): the first address outside Memory, or none. -/
def spanFault (s : State) (count : Nat) : Option Nat :=
  if 0 < count ∧ Config.memSize ≤ effAddr s (count - 1) then some (max s.i.toNat Config.memSize) else none

/-- The skip of 41_flow.md: `pc <- pc + 2` a second time when the condition holds. -/
def skipIf (cond : Bool) (s : State) : State := if cond then s.setPc (s.pc + 2) else s

/-- The registers `V[0]` to `V[x]` in order (43_index_memory.md R204). -/
def registersUpTo (s : State) (x : Nibble) : List Byte := s.v.toList.take (x.toNat + 1)

/-- The three decimal digits of a byte, hundreds first (43_index_memory.md R203). -/
def decimalDigits (b : Byte) : List Byte :=
  [BitVec.ofNat 8 (b.toNat / 100), BitVec.ofNat 8 (b.toNat / 10 % 10), BitVec.ofNat 8 (b.toNat % 10)]

/-- The address of the glyph of a byte, the whole byte taken (43_index_memory.md R202, D11). -/
def glyphAddr (b : Byte) : Word16 := BitVec.ofNat 16 (Config.fontBase + Config.glyphBytes * b.toNat)

end Sys2Proof.Machine
end

