-- ==== Sys2Proof/Machine/Flags.lean ====
section
/-! DEFINITION. The results and the flags of the six flag-writing instructions (spec 10_state.md R32).
Sums are computed exactly and narrowed at the end. -/

namespace Sys2Proof.Machine

/-- A flag as the byte VF receives. -/
def flagByte (f : Bool) : Byte := if f then 1 else 0

/-- The exact sum of two bytes, 0 to 510 (42_alu.md R176). -/
def exactSum (a b : Byte) : Nat := a.toNat + b.toNat

/-- The low 8 bits of the sum (R171, R176). -/
def wrapSum (a b : Byte) : Byte := BitVec.ofNat 8 (exactSum a b)

/-- Carry out of bit 7 (R176). -/
def carryFlag (a b : Byte) : Bool := decide (255 < exactSum a b)

/-- The difference modulo 256 (R177, R179). -/
def wrapDiff (a b : Byte) : Byte := BitVec.ofInt 8 ((a.toNat : Int) - (b.toNat : Int))

/-- Strictly greater, unsigned (R177, R179): not a borrow bit, equal operands give 0 (R182). -/
def greaterFlag (a b : Byte) : Bool := decide (b.toNat < a.toNat)

/-- Half of a byte, rounded down (R178). -/
def halve (a : Byte) : Byte := BitVec.ofNat 8 (a.toNat / 2)

/-- The bit that a right shift drops (R178). -/
def bit0Flag (a : Byte) : Bool := a.getLsbD 0

/-- Twice a byte modulo 256 (R180). -/
def double (a : Byte) : Byte := BitVec.ofNat 8 (a.toNat * 2)

/-- The bit that a left shift drops (R180). -/
def bit7Flag (a : Byte) : Bool := a.getLsbD 7

/-- The flag is written first and the result last, so with `x = 15` the result remains
(40_cycle.md R135). The operands were read before. -/
def writeFlagged (x : Nibble) (flag : Bool) (result : Byte) (s : State) : State :=
  (s.setV vF (flagByte flag)).setV x result

end Sys2Proof.Machine
end

