-- ==== Sys2Proof/Machine/Alu.lean ====
section
/-! DEFINITION. The register and ALU instructions (spec 42_alu.md). -/

namespace Sys2Proof.Machine

/-- `6xkk` (R170). -/
def execLdImm (x : Nibble) (kk : Byte) (s : State) : Host.Outcome State Fault Refusal :=
  .next (s.setV x kk)

/-- `7xkk`: no flag (R171). -/
def execAddImm (x : Nibble) (kk : Byte) (s : State) : Host.Outcome State Fault Refusal :=
  .next (s.setV x (wrapSum (s.getV x) kk))

/-- `8xy0` (R172). -/
def execLdReg (x y : Nibble) (s : State) : Host.Outcome State Fault Refusal :=
  .next (s.setV x (s.getV y))

/-- `8xy1`: no flag (R173). -/
def execOrReg (x y : Nibble) (s : State) : Host.Outcome State Fault Refusal :=
  .next (s.setV x (s.getV x ||| s.getV y))

/-- `8xy2`: no flag (R174). -/
def execAndReg (x y : Nibble) (s : State) : Host.Outcome State Fault Refusal :=
  .next (s.setV x (s.getV x &&& s.getV y))

/-- `8xy3`: no flag (R175). -/
def execXorReg (x y : Nibble) (s : State) : Host.Outcome State Fault Refusal :=
  .next (s.setV x (s.getV x ^^^ s.getV y))

/-- `8xy4` (R176). -/
def execAddReg (x y : Nibble) (s : State) : Host.Outcome State Fault Refusal :=
  .next (writeFlagged x (carryFlag (s.getV x) (s.getV y)) (wrapSum (s.getV x) (s.getV y)) s)

/-- `8xy5` (R177). -/
def execSub (x y : Nibble) (s : State) : Host.Outcome State Fault Refusal :=
  .next (writeFlagged x (greaterFlag (s.getV x) (s.getV y)) (wrapDiff (s.getV x) (s.getV y)) s)

/-- `8xy6`: `y` is ignored (R178). -/
def execShr (x _y : Nibble) (s : State) : Host.Outcome State Fault Refusal :=
  .next (writeFlagged x (bit0Flag (s.getV x)) (halve (s.getV x)) s)

/-- `8xy7` (R179). -/
def execSubn (x y : Nibble) (s : State) : Host.Outcome State Fault Refusal :=
  .next (writeFlagged x (greaterFlag (s.getV y) (s.getV x)) (wrapDiff (s.getV y) (s.getV x)) s)

/-- `8xyE`: `y` is ignored (R180). -/
def execShl (x _y : Nibble) (s : State) : Host.Outcome State Fault Refusal :=
  .next (writeFlagged x (bit7Flag (s.getV x)) (double (s.getV x)) s)

/-- `Cxkk`: the byte is a free value (R181, R283; log 1). -/
def execRnd (x : Nibble) (kk : Byte) (s : State) : Host.Outcome State Fault Refusal :=
  .next (s.drawn.setV x (Config.rnd s.draws &&& kk))

end Sys2Proof.Machine
end

