-- ==== Sys2Proof/Machine/Display.lean ====
section
/-! DEFINITION. The pixel engine's instructions (spec 44_display.md). -/

namespace Sys2Proof.Machine

/-- `00E0` (R220): `DIRTY` is raised whatever the framebuffer held (D20). -/
def execCls (s : State) : Host.Outcome State Fault Refusal :=
  .next (s.setFb clearFb)

/-- What a draw of the rows at `(vx, vy)` makes of the framebuffer, and whether a pixel went off. -/
def drawAt (s : State) (vx vy : Byte) (rows : List Byte) : Framebuffer × Bool :=
  drawSprite vx.toNat vy.toNat rows (s.fb, false)

/-- `Dxyn` (R221): the position is read before VF is written; the check precedes every write; VF is the
collision; `DIRTY` is raised by every draw that does not fault. -/
def execDrw (x y n : Nibble) (s : State) : Host.Outcome State Fault Refusal :=
  match spanFault s n.toNat with
  | some a => .next (raiseFatal .outOfBounds (some a) s)
  | none =>
    let drawn := drawAt s (s.getV x) (s.getV y) (readBytes s (effAddr s 0) n.toNat)
    .next ((s.setV vF (flagByte drawn.2)).setFb drawn.1)

end Sys2Proof.Machine
end

