-- ==== Sys2Proof/Machine/Flow.lean ====
section
/-! DEFINITION. The control transfers (spec 41_flow.md). Inside an instruction `pc` already holds
`pc0 + 2` (40_cycle.md R132). -/

namespace Sys2Proof.Machine

/-- `0nnn`: no operation, `nnn` is ignored (R150). -/
def execSys (_nnn : Addr12) (s : State) : Host.Outcome State Fault Refusal :=
  .next s

/-- `00EE` (R151): fatal when the stack is empty. -/
def execRet (s : State) : Host.Outcome State Fault Refusal :=
  match pop s with
  | none => .next (raiseFatal .stackUnderflow none s)
  | some (t, target) => .next (t.setPc target)

/-- `1nnn` (R152). -/
def execJp (nnn : Addr12) (s : State) : Host.Outcome State Fault Refusal :=
  .next (s.setPc nnn.zext)

/-- `2nnn` (R153): pushes the advanced `pc`; fatal when 16 entries are held. -/
def execCall (nnn : Addr12) (s : State) : Host.Outcome State Fault Refusal :=
  match push s.pc s with
  | none => .next (raiseFatal .stackOverflow none s)
  | some t => .next (t.setPc nnn.zext)

/-- `3xkk` (R154). -/
def execSeImm (x : Nibble) (kk : Byte) (s : State) : Host.Outcome State Fault Refusal :=
  .next (skipIf (s.getV x == kk) s)

/-- `4xkk` (R155). -/
def execSneImm (x : Nibble) (kk : Byte) (s : State) : Host.Outcome State Fault Refusal :=
  .next (skipIf (s.getV x != kk) s)

/-- `5xy0` (R156). -/
def execSeReg (x y : Nibble) (s : State) : Host.Outcome State Fault Refusal :=
  .next (skipIf (s.getV x == s.getV y) s)

/-- `9xy0` (R157). -/
def execSneReg (x y : Nibble) (s : State) : Host.Outcome State Fault Refusal :=
  .next (skipIf (s.getV x != s.getV y) s)

/-- `Bnnn`: the sum is not masked (R158, D8). -/
def execJpV0 (nnn : Addr12) (s : State) : Host.Outcome State Fault Refusal :=
  .next (s.setPc (nnn.zext + zextByte (s.getV 0)))

end Sys2Proof.Machine
end

