-- ==== Sys2Proof/Machine/IndexMemory.lean ====
section
/-! DEFINITION. The index register and the memory transfers (spec 43_index_memory.md). Bounds are checked
before the first write (40_cycle.md R139). -/

namespace Sys2Proof.Machine

/-- `Annn` (R200). -/
def execLdI (nnn : Addr12) (s : State) : Host.Outcome State Fault Refusal :=
  .next (s.setI nnn.zext)

/-- `Fx1E`: modulo 65536, no flag (R201). -/
def execAddI (x : Nibble) (s : State) : Host.Outcome State Fault Refusal :=
  .next (s.setI (s.i + zextByte (s.getV x)))

/-- `Fx29` (R202). -/
def execLdF (x : Nibble) (s : State) : Host.Outcome State Fault Refusal :=
  .next (s.setI (glyphAddr (s.getV x)))

/-- `Fx33` (R203). -/
def execLdB (x : Nibble) (s : State) : Host.Outcome State Fault Refusal :=
  match spanFault s 3 with
  | some a => .next (raiseFatal .outOfBounds (some a) s)
  | none => .next (writeBytes (effAddr s 0) (decimalDigits (s.getV x)) s)

/-- `Fx55`: `V[0]` to `V[x]` inclusive, `I` unchanged (R204, D10). -/
def execStRegs (x : Nibble) (s : State) : Host.Outcome State Fault Refusal :=
  match spanFault s (x.toNat + 1) with
  | some a => .next (raiseFatal .outOfBounds (some a) s)
  | none => .next (writeBytes (effAddr s 0) (registersUpTo s x) s)

/-- `Fx65`: `V[0]` to `V[x]` inclusive, `I` unchanged (R205, D10). -/
def execLdRegs (x : Nibble) (s : State) : Host.Outcome State Fault Refusal :=
  match spanFault s (x.toNat + 1) with
  | some a => .next (raiseFatal .outOfBounds (some a) s)
  | none => .next (loadRegisters (effAddr s 0) (x.toNat + 1) s)

end Sys2Proof.Machine
end

