-- ==== Sys2Proof/Machine/KeysTimers.lean ====
section
/-! DEFINITION. The keyboard and timer instructions (spec 45_keys_timers.md). -/

namespace Sys2Proof.Machine

/-- `Ex9E`: the whole byte is the identifier (R240). -/
def execSkp (x : Nibble) (s : State) : Host.Outcome State Fault Refusal :=
  .next (skipIf (isPressed s (s.getV x)) s)

/-- `ExA1` (R241). -/
def execSknp (x : Nibble) (s : State) : Host.Outcome State Fault Refusal :=
  .next (skipIf (!isPressed s (s.getV x)) s)

/-- `Fx07` (R242). -/
def execLdVxDt (x : Nibble) (s : State) : Host.Outcome State Fault Refusal :=
  .next (s.setV x s.dt)

/-- `Fx0A` (R243): completes at once when a key is held, else the cycle stays open in `WaitKey`. -/
def execLdVxK (x : Nibble) (s : State) : Host.Outcome State Fault Refusal :=
  if heldCount s = 0 then .next (s.setRun .waitKey) else .next (s.setV x (s.lastKey.setWidth 8))

/-- `Fx15` (R244). -/
def execLdDtVx (x : Nibble) (s : State) : Host.Outcome State Fault Refusal :=
  .next (s.setDt (s.getV x))

/-- `Fx18` (R245). -/
def execLdStVx (x : Nibble) (s : State) : Host.Outcome State Fault Refusal :=
  .next (s.setSt (s.getV x))

end Sys2Proof.Machine
end

