-- ==== Sys2Proof/Machine/Cycle.lean ====
section
/-! DEFINITION. What stands around an instruction: fetch, completion of a cycle, the end of a tick, the
key wait (spec 40_cycle.md, 60_exceptions.md R274, R275), and the steps of the host (R285). -/

namespace Sys2Proof.Machine

/-! Fetch (40_cycle.md R131). -/

/-- The instruction word at `pc`, lower address first; the error is the first offending address. The
second address is `pc + 1` unwrapped (20_memory.md R77). -/
def fetch (s : State) : Except Nat Word16 :=
  match memRead s s.pc.toNat with
  | .error a => .error a
  | .ok hi =>
    match memRead s (s.pc.toNat + 1) with
    | .error a => .error a
    | .ok lo => .ok (assembleWord hi lo)

/-- After a successful fetch: `IR` holds the word and `pc` is advanced by 2 (R130, R132). -/
def latch (w : Word16) (s : State) : State := { s with ir := w, pc := s.pc + 2 }

/-! The end of a cycle (R138, R274, R275). -/

/-- One step of a timer: it stops at 0 (R35, R274). -/
def countDown (b : Byte) : Byte := if b = 0 then 0 else b - 1

/-- Both timers count (R274, D13). -/
def stepTimers (s : State) : State := { s with dt := countDown s.dt, st := countDown s.st }

/-- `PaintCheck` (R275). -/
def paintCheck (s : State) : State :=
  if s.dirty then
    { s with dirty := false, outbox := s.outbox ++ [.paint (litPixels s.fb) Config.fbW Config.fbH] }
  else s

/-- `EndOfTick` (R274): timers first, then the paint check (D24). -/
def endOfTick (s : State) : State := paintCheck (stepTimers s)

/-- `CompleteCycle` (R138). -/
def completeCycle (s : State) : State :=
  if h : s.cyc.val + 1 = Config.cyclesPerTick then endOfTick { s with cyc := 0 }
  else
    have h' := s.cyc.isLt
    { s with cyc := ⟨s.cyc.val + 1, by simp only [Config.cyclesPerTick] at h; omega⟩ }

/-- What follows an instruction (R130): its cycle completes unless it halted the core or entered
`WaitKey`. -/
def finishCycle : Host.Outcome State Fault Refusal → Host.Outcome State Fault Refusal
  | .next t => .next (if t.run = .running then completeCycle t else t)
  | .fault f => .fault f
  | .refused r => .refused r

/-! The core's steps (R130). -/

/-- The rest of a cycle once the word is fetched; `s` is the state after `latch`. -/
def runWord (w : Word16) (s : State) : Host.Outcome State Fault Refusal :=
  match decode w with
  | .error _ => .next (completeCycle (invalidInstruction (s.pc - 2) w s))
  | .ok i => finishCycle (exec i s)

/-- `Cycle` of R130. -/
def cycle (s : State) : Host.Outcome State Fault Refusal :=
  if s.stopReq then .next (s.setRun (.halted .stopped))
  else
    match fetch s with
    | .error a => .next (fetchFault a s)
    | .ok w => runWord w (latch w s)

/-- `WaitStep` of R137. With no key held the core is held: it performs no step and changes no state
(R277), so its turn leaves the state as it is (log 12). -/
def waitStep (s : State) : Host.Outcome State Fault Refusal :=
  if s.stopReq then .next (s.setRun (.halted .stopped))
  else if heldCount s = 0 then .next s
  else .next (completeCycle ((s.setV (fieldX s.ir) (s.lastKey.setWidth 8)).setRun .running))

/-- The core's step in each run state (R130). A halted core has none (log 11). -/
def coreStep (s : State) : Host.Outcome State Fault Refusal :=
  match s.run with
  | .running => cycle s
  | .waitKey => waitStep s
  | .halted cause => .fault (.halted cause)

/-! The host's steps (R285). -/

/-- `KeyDown(k)` (R276). -/
def keyDown (k : Nibble) (s : State) : State := { s with key := s.key.set k.toNat true k.isLt, lastKey := k }

/-- `KeyUp(k)` (R276). -/
def keyUp (k : Nibble) (s : State) : State := { s with key := s.key.set k.toNat false k.isLt }

/-- `StopReq` (R270): sticky. -/
def requestStop (s : State) : State := { s with stopReq := true }

/-- The state `Reset(rom)` installs (70_reset_and_hazards.md R310). The configuration, the draws made, the
events already emitted and the turns to come are no state of the core and stay (log 13). -/
def resetWith (rom : List Byte) (s : State) : State :=
  writeBytes Config.entry rom
    { State.reset with config := s.config, draws := s.draws, outbox := s.outbox, schedule := s.schedule }

/-- A step of the host. `Reset` with an image longer than `ROM_MAX` is refused (R284, U16). -/
def envStep (e : EnvStep) (s : State) : Host.Outcome State Fault Refusal :=
  match e with
  | .keyDown k => .next (keyDown k s)
  | .keyUp k => .next (keyUp k s)
  | .stopReq => .next (requestStop s)
  | .reset rom => if rom.length ≤ Config.romMax then .next (resetWith rom s) else .refused (.imageTooLong rom.length)
  | .takeEvent => .next { s with outbox := s.outbox.tail }

/-- One atomic step of whoever's turn it is (R136). -/
def takeTurn (s : State) : Host.Outcome State Fault Refusal :=
  match s.schedule with
  | [] => coreStep s
  | .core :: rest => coreStep { s with schedule := rest }
  | .host e :: rest => envStep e { s with schedule := rest }

/-! Placing an instruction where the next fetch finds it. -/

/-- Whether a turn is the host's. -/
def Turn.isHost : Turn → Bool
  | .core => false
  | .host _ => true

/-- The state with a word stored at `pc` and the next turn a cycle that fetches it: the core running, no
stop requested, no host step due before it, and `pc` at the entry point where a fetch at it would fault. -/
def placeWord (s : State) (w : Word16) : State :=
  let pc := if s.pc.toNat + 1 < Config.memSize then s.pc else BitVec.ofNat 16 Config.entry
  writeBytes pc.toNat [(wordBytes w).1, (wordBytes w).2]
    { s with pc := pc, run := .running, stopReq := false, schedule := s.schedule.dropWhile Turn.isHost }

end Sys2Proof.Machine
end

