-- ==== Sys2Proof/Safety.lean ====
section
/-! DEFINITION. The terms that claims about the machine use: parts of the state and frames, whose turn it
is, the invariant of every reachable state, and the pixels a sprite covers. -/

namespace Sys2Proof.Safety

open Sys2Proof.Machine

/-- The smallest parts of the state that a frame speaks of. -/
inductive StatePart where
  | v (r : Nibble)
  | i
  | pc
  | dt
  | st
  | sp
  | stack (k : Nat)
  | mem (a : Nat)
  | pixel (x y : Nat)
  | dirty
  | key
  | lastKey
  | run
  | ir
  | cyc
  | stopReq
  | err
  | config
  | draws
  | outbox
  | schedule
deriving DecidableEq, Repr

/-- The part has the same contents in both states. -/
def StatePart.Agrees (s t : State) : StatePart → Prop
  | .v r => t.getV r = s.getV r
  | .i => t.i = s.i
  | .pc => t.pc = s.pc
  | .dt => t.dt = s.dt
  | .st => t.st = s.st
  | .sp => t.sp = s.sp
  | .stack k => t.stackEntry k = s.stackEntry k
  | .mem a => t.peek a = s.peek a
  | .pixel x y => Machine.pixel t.fb x y = Machine.pixel s.fb x y
  | .dirty => t.dirty = s.dirty
  | .key => t.key = s.key
  | .lastKey => t.lastKey = s.lastKey
  | .run => t.run = s.run
  | .ir => t.ir = s.ir
  | .cyc => t.cyc = s.cyc
  | .stopReq => t.stopReq = s.stopReq
  | .err => t.err = s.err
  | .config => t.config = s.config
  | .draws => t.draws = s.draws
  | .outbox => t.outbox = s.outbox
  | .schedule => t.schedule = s.schedule

/-- The frame: every part but the touched ones is unchanged. -/
def UnchangedBut (touched : StatePart → Prop) (s t : State) : Prop := ∀ p, ¬ touched p → p.Agrees s t

/-- What a fatal exception writes (60_exceptions.md R265, 40_cycle.md R139): `RUN`, `ERR` and the report. -/
def fatalParts (p : StatePart) : Prop := p = .run ∨ p = .err ∨ p = .outbox

/-- The instruction takes a fatal exception (60_exceptions.md R265, R266): the record names the address the
instruction was fetched from (`pc - 2`, since `pc` holds `pc0 + 2`), its word and the offending memory
address, the core halts, the record is reported, and nothing else changes. -/
def TakesFatal (i : Instr) (s : State) (kind : FatalKind) (maddr : Option Nat) : Prop :=
  ∃ t, exec i s = .next t ∧ t.run = .halted (.fatal kind) ∧
    t.err = some ⟨kind, s.pc - 2, s.ir, maddr⟩ ∧
    t.outbox = s.outbox ++ [.errorReport ⟨kind, s.pc - 2, s.ir, maddr⟩] ∧ UnchangedBut fatalParts s t

/-- The key that a byte identifies is held; a byte above 15 identifies none (45_keys_timers.md R246). -/
def KeyHeld (s : State) (b : Byte) : Prop := ∃ h : b.toNat < 16, s.key[b.toNat] = true

/-- It is the core's turn, and `s'` is the state its step starts from (40_cycle.md R136). -/
def CoreDue (s s' : State) : Prop :=
  (s.schedule = [] ∧ s' = s) ∨ (∃ rest, s.schedule = .core :: rest ∧ s' = { s with schedule := rest })

/-- What holds at every step boundary of every run (10_state.md R34, R37, R44, R48). -/
structure MachineInv (s : State) : Prop where
  /-- Memory has its canonical form. -/
  memory : Memory.wf s.config s.mem
  /-- The bound on `pc` that R34 derives. -/
  pcBound : s.pc.toNat ≤ 0x10FE
  /-- Every address held on the stack was pushed as `pc0 + 2` (R34, R153). -/
  stackBound : ∀ k, k < s.sp.val → (s.stackEntry k).toNat ≤ 4096
  /-- `ERR` is written exactly when the core halts on a fatal error, and names its kind (R48, R265). -/
  errIffFatal : ∀ k, s.run = .halted (.fatal k) ↔ ∃ e, s.err = some e ∧ e.kind = k
  /-- In `WaitKey`, `IR` holds the `Fx0A` (R44). -/
  waitHoldsKeyRead : s.run = .waitKey → ∃ x, decode s.ir = .ok (.ldVxK x)

/-- The pixel `(px, py)` lies under a set bit of the sprite rows drawn at `(vx, vy)`: row `r` and column
`c` land at `((vx + c) mod 64, (vy + r) mod 32)`, bit 7 the leftmost (44_display.md R221). -/
def Covers (rows : List Byte) (vx vy px py : Nat) : Prop :=
  ∃ r, r < rows.length ∧ ∃ c, c < 8 ∧ (rows.getD r 0).getLsbD (7 - c) = true ∧
    (vx + c) % 64 = px ∧ (vy + r) % 32 = py

/-- The event is the report of an invalid word, the one effect of `DIAG` (60_exceptions.md R279). -/
def isInvalidReport : Event → Bool
  | .invalidReport _ _ => true
  | .paint _ _ _ | .errorReport _ => false

/-- The six instructions that write VF as a flag (10_state.md R32). -/
def writesFlag : Instr → Bool
  | .addReg _ _ | .sub _ _ | .shr _ _ | .subn _ _ | .shl _ _ | .drw _ _ _ => true
  | .cls | .ret | .sys _ | .jp _ | .call _ | .seImm _ _ | .sneImm _ _ | .seReg _ _ | .ldImm _ _
  | .addImm _ _ | .ldReg _ _ | .orReg _ _ | .andReg _ _ | .xorReg _ _ | .sneReg _ _ | .ldI _ | .jpV0 _
  | .rnd _ _ | .skp _ | .sknp _ | .ldVxDt _ | .ldVxK _ | .ldDtVx _ | .ldStVx _ | .addI _ | .ldF _
  | .ldB _ | .stRegs _ | .ldRegs _ => false

/-- The registers an instruction names as its destination (40_cycle.md R135 and the instruction rules):
`V[x]`, or `V[0]` to `V[x]` for `Fx65`. The flag is not counted. -/
def isDestination : Instr → Nibble → Bool
  | .ldImm x _, r | .addImm x _, r | .ldReg x _, r | .orReg x _, r | .andReg x _, r | .xorReg x _, r
  | .addReg x _, r | .sub x _, r | .shr x _, r | .subn x _, r | .shl x _, r | .rnd x _, r
  | .ldVxDt x, r | .ldVxK x, r => r == x
  | .ldRegs x, r => decide (r.toNat ≤ x.toNat)
  | .cls, _ | .ret, _ | .sys _, _ | .jp _, _ | .call _, _ | .seImm _ _, _ | .sneImm _ _, _
  | .seReg _ _, _ | .sneReg _ _, _ | .ldI _, _ | .jpV0 _, _ | .drw _ _ _, _ | .skp _, _ | .sknp _, _
  | .ldDtVx _, _ | .ldStVx _, _ | .addI _, _ | .ldF _, _ | .ldB _, _ | .stRegs _, _ => false

/-- The instructions that assign `pc` (41_flow.md R159): the four absolute transfers and the six skips. -/
def assignsPc : Instr → Bool
  | .ret | .jp _ | .call _ | .jpV0 _ | .seImm _ _ | .sneImm _ _ | .seReg _ _ | .sneReg _ _ | .skp _
  | .sknp _ => true
  | .cls | .sys _ | .ldImm _ _ | .addImm _ _ | .ldReg _ _ | .orReg _ _ | .andReg _ _ | .xorReg _ _
  | .addReg _ _ | .sub _ _ | .shr _ _ | .subn _ _ | .shl _ _ | .ldI _ | .rnd _ _ | .drw _ _ _
  | .ldVxDt _ | .ldVxK _ | .ldDtVx _ | .ldStVx _ | .addI _ | .ldF _ | .ldB _ | .stRegs _ | .ldRegs _ => false

/-- The one fatal exception an instruction can raise, when it can raise one (60_exceptions.md R268). -/
def fatalOf : Instr → Option FatalKind
  | .call _ => some .stackOverflow
  | .ret => some .stackUnderflow
  | .drw _ _ _ | .ldB _ | .stRegs _ | .ldRegs _ => some .outOfBounds
  | .cls | .sys _ | .jp _ | .jpV0 _ | .seImm _ _ | .sneImm _ _ | .seReg _ _ | .sneReg _ _ | .skp _
  | .sknp _ | .ldImm _ _ | .addImm _ _ | .ldReg _ _ | .orReg _ _ | .andReg _ _ | .xorReg _ _
  | .addReg _ _ | .sub _ _ | .shr _ _ | .subn _ _ | .shl _ _ | .ldI _ | .rnd _ _ | .ldVxDt _
  | .ldVxK _ | .ldDtVx _ | .ldStVx _ | .addI _ | .ldF _ => none

end Sys2Proof.Safety
end

