-- ==== Sys2Proof/Certificates/Slice0/Obligations.lean ====
section
/-! DEFINITION. The statements for the provers. Inside an instruction `pc` holds `pc0 + 2`
(40_cycle.md R132), so a statement about `exec` says `s.pc` for that value. -/

open Sys2Proof Sys2Proof.Machine Sys2Proof.Safety

/-! ## Encoding -/

/-- Headline: the word of every well-formed instruction decodes to it, every operand at every value
(30_encoding.md R101 to R105). -/
def Obligations.EncodedInstructionDecodesBack : Prop :=
  ∀ i : Instr, WellFormed i = true → decode (encode i) = .ok i

/-- The other direction: a word that decodes is the word of what it decodes to, and that is well formed. -/
def Obligations.DecodedWordEncodesBack : Prop :=
  ∀ (w : Word16) (i : Instr), decode w = .ok i → WellFormed i = true ∧ encode i = w

/-- The decode procedure of R104 and the opcode map of R105 select the same row for every word: the first
row with `W AND mask = match`, none exactly for the invalid words. -/
def Obligations.DecodeSelectsTheOpcodeMapRow : Prop :=
  ∀ w : Word16,
    (match decode w with | .ok i => some (mnemonic i) | .error _ => none) =
      (opcodeMap.find? (fun row => row.selects w)).map OpcodeRow.mnemonic

/-- The words that decoding refuses are those that R106 lists. -/
def Obligations.InvalidWordsAreThoseListed : Prop :=
  ∀ w : Word16,
    let family := w.toNat / 4096
    let n := w.toNat % 16
    let kk := w.toNat % 256
    (∃ e, decode w = .error e) ↔
      (family = 5 ∧ n ≠ 0) ∨ (family = 8 ∧ n ∈ [8, 9, 10, 11, 12, 13, 15]) ∨ (family = 9 ∧ n ≠ 0) ∨
      (family = 14 ∧ kk ∉ [0x9E, 0xA1]) ∨
      (family = 15 ∧ kk ∉ [0x07, 0x0A, 0x15, 0x18, 0x1E, 0x29, 0x33, 0x55, 0x65])

/-- A few words written out from the spec's encodings (95_test_vectors.md part 2.1 and part 3). -/
def Obligations.SampleWordsDecodeAsThePatternsSay : Prop :=
  decode 0x00E0 = .ok .cls ∧ decode 0x00EE = .ok .ret ∧ decode 0x01E0 = .ok (.sys 0x1E0) ∧
  decode 0x2208 = .ok (.call 0x208) ∧ decode 0x7005 = .ok (.addImm 0 5) ∧
  decode 0x8127 = .ok (.subn 1 2) ∧ decode 0xB123 = .ok (.jpV0 0x123) ∧
  decode 0xDAB2 = .ok (.drw 10 11 2) ∧ decode 0xE1A1 = .ok (.sknp 1) ∧ decode 0xF265 = .ok (.ldRegs 2) ∧
  decode 0x8128 = .error (.family8 8) ∧ decode 0xF130 = .error (.familyF 0x30)

/-! ## Memory -/

/-- R71: a store inside Memory succeeds, its byte is read back and every other address reads as before;
outside, both primitives fail with the address. -/
def Obligations.MemoryReadsTheLastWrite : Prop :=
  ∀ (s : State) (a : Nat) (b : Byte),
    (a < 4096 → ∃ t, memWrite s a b = .ok t ∧ memRead t a = .ok b ∧ ∀ q, q ≠ a → memRead t q = memRead s q) ∧
    (4096 ≤ a → memWrite s a b = .error a ∧ memRead s a = .error a)

/-- A store over the next instruction is what the next cycle fetches (20_memory.md section 3). That the byte
at the lower address, here `V[0]`, is the high half of the word is the model's choice (the spec's decision D2;
log 7). -/
def Obligations.StoredBytesAreTheNextInstruction : Prop :=
  ∀ (x : Nibble) (s : State), 1 ≤ x.toNat → s.i = s.pc → s.i.toNat + x.toNat ≤ 4095 →
    ∃ t, exec (.stRegs x) s = .next t ∧ fetch t = .ok (s.getV 0 ++ s.getV 1)

/-! ## Control transfer (41_flow.md) -/

/-- R150: every `0nnn` but the two fixed words does nothing. -/
def Obligations.SysDoesNothing : Prop :=
  ∀ (nnn : Addr12) (s : State), nnn ≠ 0x0E0 → nnn ≠ 0x0EE →
    decode (0x0#4 ++ nnn) = .ok (.sys nnn) ∧ exec (.sys nnn) s = .next s

/-- R151: the newest address becomes `pc`, with no further advance; on an empty stack the core halts with
`StackUnderflow`, `SP` and `pc` as they stand. -/
def Obligations.ReturnPopsTheNewestAddress : Prop :=
  ∀ s : State, decode 0x00EE = .ok .ret ∧
    (0 < s.sp.val → ∃ t, exec .ret s = .next t ∧ t.pc = s.stackEntry (s.sp.val - 1) ∧
      t.sp.val = s.sp.val - 1 ∧ UnchangedBut (fun p => p = .pc ∨ p = .sp) s t) ∧
    (s.sp.val = 0 → ∃ t, exec .ret s = .next t ∧ t.run = .halted (.fatal .stackUnderflow) ∧
      UnchangedBut fatalParts s t)

/-- R152. -/
def Obligations.JumpGoesToTheTarget : Prop :=
  ∀ (nnn : Addr12) (s : State), decode (0x1#4 ++ nnn) = .ok (.jp nnn) ∧
    ∃ t, exec (.jp nnn) s = .next t ∧ t.pc.toNat = nnn.toNat ∧ UnchangedBut (fun p => p = .pc) s t

/-- R153: the advanced `pc` is pushed; on a full stack the core halts with `StackOverflow`, nothing pushed
and `pc` as it stands. -/
def Obligations.CallPushesTheReturnAddress : Prop :=
  ∀ (nnn : Addr12) (s : State), decode (0x2#4 ++ nnn) = .ok (.call nnn) ∧
    (s.sp.val < 16 → ∃ t, exec (.call nnn) s = .next t ∧ t.pc.toNat = nnn.toNat ∧
      t.sp.val = s.sp.val + 1 ∧ t.stackEntry s.sp.val = s.pc ∧
      UnchangedBut (fun p => p = .pc ∨ p = .sp ∨ p = .stack s.sp.val) s t) ∧
    (s.sp.val = 16 → ∃ t, exec (.call nnn) s = .next t ∧ t.run = .halted (.fatal .stackOverflow) ∧
      UnchangedBut fatalParts s t)

/-- What a stack exception leaves: the record with the fetch address and the word, the report, and nothing
else (60_exceptions.md section 1; the record's form is the spec's decision D22). -/
def Obligations.StackExceptionsAreRecorded : Prop :=
  ∀ (nnn : Addr12) (s : State),
    (s.sp.val = 16 → TakesFatal (.call nnn) s .stackOverflow none) ∧
    (s.sp.val = 0 → TakesFatal .ret s .stackUnderflow none)

/-- A return after a call restores `pc` and the stack's depth and older entries (40_cycle.md section 1,
95_test_vectors.md S4). -/
def Obligations.ReturnUndoesCall : Prop :=
  ∀ (nnn : Addr12) (s : State), s.sp.val < 16 →
    ∃ t u, exec (.call nnn) s = .next t ∧ exec .ret t = .next u ∧
      UnchangedBut (fun p => p = .stack s.sp.val) s u

/-- R154 and R155: a taken skip adds 2 to the advanced `pc`. -/
def Obligations.ImmediateSkipsCompareEquality : Prop :=
  ∀ (x : Nibble) (kk : Byte) (s : State),
    (decode (0x3#4 ++ (x ++ kk)) = .ok (.seImm x kk) ∧
      ∃ t, exec (.seImm x kk) s = .next t ∧ (s.getV x = kk → t.pc = s.pc + 2) ∧
        (s.getV x ≠ kk → t.pc = s.pc) ∧ UnchangedBut (fun p => p = .pc) s t) ∧
    (decode (0x4#4 ++ (x ++ kk)) = .ok (.sneImm x kk) ∧
      ∃ t, exec (.sneImm x kk) s = .next t ∧ (s.getV x ≠ kk → t.pc = s.pc + 2) ∧
        (s.getV x = kk → t.pc = s.pc) ∧ UnchangedBut (fun p => p = .pc) s t)

/-- R156 and R157, with the words whose last nibble is not 0 invalid. -/
def Obligations.RegisterSkipsCompareEquality : Prop :=
  ∀ (x y n : Nibble) (s : State),
    (decode (0x5#4 ++ (x ++ (y ++ 0#4))) = .ok (.seReg x y) ∧
      (n ≠ 0 → ∃ e, decode (0x5#4 ++ (x ++ (y ++ n))) = .error e) ∧
      ∃ t, exec (.seReg x y) s = .next t ∧ (s.getV x = s.getV y → t.pc = s.pc + 2) ∧
        (s.getV x ≠ s.getV y → t.pc = s.pc) ∧ UnchangedBut (fun p => p = .pc) s t) ∧
    (decode (0x9#4 ++ (x ++ (y ++ 0#4))) = .ok (.sneReg x y) ∧
      (n ≠ 0 → ∃ e, decode (0x9#4 ++ (x ++ (y ++ n))) = .error e) ∧
      ∃ t, exec (.sneReg x y) s = .next t ∧ (s.getV x ≠ s.getV y → t.pc = s.pc + 2) ∧
        (s.getV x = s.getV y → t.pc = s.pc) ∧ UnchangedBut (fun p => p = .pc) s t)

/-- The jump with offset: `nnn + V[0]`, not masked (the spec's decision D8). -/
def Obligations.OffsetJumpAddsRegisterZero : Prop :=
  ∀ (nnn : Addr12) (s : State), decode (0xB#4 ++ nnn) = .ok (.jpV0 nnn) ∧
    ∃ t, exec (.jpV0 nnn) s = .next t ∧ t.pc.toNat = nnn.toNat + (s.getV 0).toNat ∧
      UnchangedBut (fun p => p = .pc) s t

/-- Sequential flow: only the four absolute transfers and the six skips assign `pc` (41_flow.md, laws of
control transfer (a) and (b)). -/
def Obligations.OnlyTransfersAssignThePc : Prop :=
  ∀ (i : Instr) (s t : State), assignsPc i = false → exec i s = .next t → t.pc = s.pc

/-! ## Registers and ALU (42_alu.md) -/

/-- R170 and R172. -/
def Obligations.LoadsWriteTheDestination : Prop :=
  ∀ (x y : Nibble) (kk : Byte) (s : State),
    (decode (0x6#4 ++ (x ++ kk)) = .ok (.ldImm x kk) ∧
      ∃ t, exec (.ldImm x kk) s = .next t ∧ t.getV x = kk ∧ UnchangedBut (fun p => p = .v x) s t) ∧
    (decode (0x8#4 ++ (x ++ (y ++ 0x0#4))) = .ok (.ldReg x y) ∧
      ∃ t, exec (.ldReg x y) s = .next t ∧ t.getV x = s.getV y ∧ UnchangedBut (fun p => p = .v x) s t)

/-- R171: modulo 256, and VF is written only as the destination. -/
def Obligations.AddImmediateWrapsWithoutFlag : Prop :=
  ∀ (x : Nibble) (kk : Byte) (s : State), decode (0x7#4 ++ (x ++ kk)) = .ok (.addImm x kk) ∧
    ∃ t, exec (.addImm x kk) s = .next t ∧
      (t.getV x).toNat = ((s.getV x).toNat + kk.toNat) % 256 ∧ UnchangedBut (fun p => p = .v x) s t

/-- R173, R174, R175: bit by bit, and VF is written only as the destination. -/
def Obligations.LogicActsBitByBit : Prop :=
  ∀ (x y : Nibble) (s : State),
    (decode (0x8#4 ++ (x ++ (y ++ 0x1#4))) = .ok (.orReg x y) ∧
      ∃ t, exec (.orReg x y) s = .next t ∧
        (∀ k, (t.getV x).getLsbD k = ((s.getV x).getLsbD k || (s.getV y).getLsbD k)) ∧
        UnchangedBut (fun p => p = .v x) s t) ∧
    (decode (0x8#4 ++ (x ++ (y ++ 0x2#4))) = .ok (.andReg x y) ∧
      ∃ t, exec (.andReg x y) s = .next t ∧
        (∀ k, (t.getV x).getLsbD k = ((s.getV x).getLsbD k && (s.getV y).getLsbD k)) ∧
        UnchangedBut (fun p => p = .v x) s t) ∧
    (decode (0x8#4 ++ (x ++ (y ++ 0x3#4))) = .ok (.xorReg x y) ∧
      ∃ t, exec (.xorReg x y) s = .next t ∧
        (∀ k, (t.getV x).getLsbD k = ((s.getV x).getLsbD k ^^ (s.getV y).getLsbD k)) ∧
        UnchangedBut (fun p => p = .v x) s t)

/-- R176: the low 8 bits of the sum, VF the carry; with `x = 15` the sum remains in VF. -/
def Obligations.AddRegisterSetsCarry : Prop :=
  ∀ (x y : Nibble) (s : State), decode (0x8#4 ++ (x ++ (y ++ 0x4#4))) = .ok (.addReg x y) ∧
    ∃ t, exec (.addReg x y) s = .next t ∧
      (t.getV x).toNat = ((s.getV x).toNat + (s.getV y).toNat) % 256 ∧
      (x ≠ 15 → (t.getV 15).toNat = if 255 < (s.getV x).toNat + (s.getV y).toNat then 1 else 0) ∧
      UnchangedBut (fun p => p = .v x ∨ p = .v 15) s t

/-- R177 and R179: the difference modulo 256, VF the strict unsigned comparison. -/
def Obligations.SubtractionsSetStrictComparison : Prop :=
  ∀ (x y : Nibble) (s : State),
    (decode (0x8#4 ++ (x ++ (y ++ 0x5#4))) = .ok (.sub x y) ∧
      ∃ t, exec (.sub x y) s = .next t ∧
        (t.getV x).toNat = ((s.getV x).toNat + 256 - (s.getV y).toNat) % 256 ∧
        (x ≠ 15 → (t.getV 15).toNat = if (s.getV y).toNat < (s.getV x).toNat then 1 else 0) ∧
        UnchangedBut (fun p => p = .v x ∨ p = .v 15) s t) ∧
    (decode (0x8#4 ++ (x ++ (y ++ 0x7#4))) = .ok (.subn x y) ∧
      ∃ t, exec (.subn x y) s = .next t ∧
        (t.getV x).toNat = ((s.getV y).toNat + 256 - (s.getV x).toNat) % 256 ∧
        (x ≠ 15 → (t.getV 15).toNat = if (s.getV x).toNat < (s.getV y).toNat then 1 else 0) ∧
        UnchangedBut (fun p => p = .v x ∨ p = .v 15) s t)

/-- The shifts: by one position, `V[x]` in place, VF the bit shifted out; `y` is ignored (the spec's
decision D28). -/
def Obligations.ShiftsMoveOnePositionAndReportTheBit : Prop :=
  ∀ (x y : Nibble) (s : State),
    (decode (0x8#4 ++ (x ++ (y ++ 0x6#4))) = .ok (.shr x y) ∧
      ∃ t, exec (.shr x y) s = .next t ∧ (t.getV x).toNat = (s.getV x).toNat / 2 ∧
        (x ≠ 15 → (t.getV 15).toNat = (s.getV x).toNat % 2) ∧
        UnchangedBut (fun p => p = .v x ∨ p = .v 15) s t) ∧
    (decode (0x8#4 ++ (x ++ (y ++ 0xE#4))) = .ok (.shl x y) ∧
      ∃ t, exec (.shl x y) s = .next t ∧ (t.getV x).toNat = (s.getV x).toNat * 2 % 256 ∧
        (x ≠ 15 → (t.getV 15).toNat = (s.getV x).toNat / 128) ∧
        UnchangedBut (fun p => p = .v x ∨ p = .v 15) s t)

/-- The random byte is a free draw (the spec's decision D21; log 1): the result is that draw under the
mask, whatever the draw is, and the next execution draws anew. -/
def Obligations.RandomByteIsMasked : Prop :=
  ∀ (x : Nibble) (kk : Byte) (s : State), decode (0xC#4 ++ (x ++ kk)) = .ok (.rnd x kk) ∧
    ∃ t, exec (.rnd x kk) s = .next t ∧ t.getV x = Config.rnd s.draws &&& kk ∧
      (∀ k, kk.getLsbD k = false → (t.getV x).getLsbD k = false) ∧ t.draws = s.draws + 1 ∧
      UnchangedBut (fun p => p = .v x ∨ p = .draws) s t

/-- Over all instructions: a register changes only as a named destination, or as VF in a flag-writing
instruction (10_state.md section 2, 40_cycle.md section 2). -/
def Obligations.RegistersChangeOnlyAsDestinations : Prop :=
  ∀ (i : Instr) (r : Nibble) (s t : State), isDestination i r = false →
    (writesFlag i = true → r ≠ 15) → exec i s = .next t → t.getV r = s.getV r

/-! ## Index register and memory transfers (43_index_memory.md) -/

/-- R200 and R201: `I` is loaded with a 12-bit value, and added to modulo 65536 with no flag. -/
def Obligations.IndexIsLoadedAndWraps : Prop :=
  ∀ (nnn : Addr12) (x : Nibble) (s : State),
    (decode (0xA#4 ++ nnn) = .ok (.ldI nnn) ∧
      ∃ t, exec (.ldI nnn) s = .next t ∧ t.i.toNat = nnn.toNat ∧ UnchangedBut (fun p => p = .i) s t) ∧
    (decode (0xF#4 ++ (x ++ 0x1E#8)) = .ok (.addI x) ∧
      ∃ t, exec (.addI x) s = .next t ∧ t.i.toNat = (s.i.toNat + (s.getV x).toNat) % 65536 ∧
        UnchangedBut (fun p => p = .i) s t)

/-- The glyph address is 5 times the whole byte (the spec's decision D11: no mask). -/
def Obligations.GlyphAddressIsFiveTimesTheByte : Prop :=
  ∀ (x : Nibble) (s : State), decode (0xF#4 ++ (x ++ 0x29#8)) = .ok (.ldF x) ∧
    ∃ t, exec (.ldF x) s = .next t ∧ t.i.toNat = 5 * (s.getV x).toNat ∧ UnchangedBut (fun p => p = .i) s t

/-- The three decimal digits go to `I`, `I + 1`, `I + 2`; a span that leaves Memory takes the exception
with no byte written (the spec's decision D9). -/
def Obligations.DecimalDigitsAreStored : Prop :=
  ∀ (x : Nibble) (s : State), decode (0xF#4 ++ (x ++ 0x33#8)) = .ok (.ldB x) ∧
    (s.i.toNat + 2 ≤ 4095 → ∃ t, exec (.ldB x) s = .next t ∧
      (t.peek (effAddr s 0)).toNat = (s.getV x).toNat / 100 ∧
      (t.peek (effAddr s 1)).toNat = (s.getV x).toNat / 10 % 10 ∧
      (t.peek (effAddr s 2)).toNat = (s.getV x).toNat % 10 ∧
      UnchangedBut (fun p => ∃ k, k < 3 ∧ p = .mem (effAddr s k)) s t) ∧
    (4095 < s.i.toNat + 2 → TakesFatal (.ldB x) s .outOfBounds (some (max s.i.toNat 4096)))

/-- `V[0]` to `V[x]` inclusive go to `I` to `I + x`, `I` unchanged (the spec's decisions D9, D10). -/
def Obligations.RegisterBlockIsStored : Prop :=
  ∀ (x : Nibble) (s : State), decode (0xF#4 ++ (x ++ 0x55#8)) = .ok (.stRegs x) ∧
    (s.i.toNat + x.toNat ≤ 4095 → ∃ t, exec (.stRegs x) s = .next t ∧
      (∀ r : Nibble, r.toNat ≤ x.toNat → t.peek (effAddr s r.toNat) = s.getV r) ∧
      UnchangedBut (fun p => ∃ k, k ≤ x.toNat ∧ p = .mem (effAddr s k)) s t) ∧
    (4095 < s.i.toNat + x.toNat → TakesFatal (.stRegs x) s .outOfBounds (some (max s.i.toNat 4096)))

/-- `V[0]` to `V[x]` inclusive come from `I` to `I + x`, `I` and Memory unchanged (the spec's decisions
D9, D10). -/
def Obligations.RegisterBlockIsLoaded : Prop :=
  ∀ (x : Nibble) (s : State), decode (0xF#4 ++ (x ++ 0x65#8)) = .ok (.ldRegs x) ∧
    (s.i.toNat + x.toNat ≤ 4095 → ∃ t, exec (.ldRegs x) s = .next t ∧
      (∀ r : Nibble, r.toNat ≤ x.toNat → t.getV r = s.peek (effAddr s r.toNat)) ∧
      UnchangedBut (fun p => ∃ r : Nibble, r.toNat ≤ x.toNat ∧ p = .v r) s t) ∧
    (4095 < s.i.toNat + x.toNat → TakesFatal (.ldRegs x) s .outOfBounds (some (max s.i.toNat 4096)))

/-! ## Display (44_display.md) -/

/-- Clear: every pixel off and the frame marked dirty (the spec's decision D20). -/
def Obligations.ClearTurnsEveryPixelOff : Prop :=
  ∀ s : State, decode 0x00E0 = .ok .cls ∧
    ∃ t, exec .cls s = .next t ∧ (∀ px py, pixel t.fb px py = false) ∧ t.dirty = true ∧
      UnchangedBut (fun p => p = .dirty ∨ ∃ px py, p = .pixel px py) s t

/-- The loop over rows and columns equals the pointwise law. Each pixel is toggled exactly when the sprite
covers it, VF says whether a covered pixel was on, and the frame is marked dirty; a span that leaves Memory
takes the exception with nothing drawn. The bit order and the precision rest on the spec's decisions D4 and
D9 (log 8). -/
def Obligations.DrawTogglesExactlyTheCoveredPixels : Prop :=
  ∀ (x y n : Nibble) (s : State),
    let rows := (List.range n.toNat).map (fun r => s.peek (effAddr s r))
    let covered := Covers rows (s.getV x).toNat (s.getV y).toNat
    decode (0xD#4 ++ (x ++ (y ++ n))) = .ok (.drw x y n) ∧
    (n.toNat = 0 ∨ s.i.toNat + n.toNat - 1 ≤ 4095 → ∃ t, exec (.drw x y n) s = .next t ∧
      (∀ px py, px < 64 → py < 32 →
        (pixel t.fb px py = true ↔ ¬ (pixel s.fb px py = true ↔ covered px py))) ∧
      ((∃ px py, px < 64 ∧ py < 32 ∧ pixel s.fb px py = true ∧ covered px py) → t.getV 15 = 1) ∧
      ((¬ ∃ px py, px < 64 ∧ py < 32 ∧ pixel s.fb px py = true ∧ covered px py) → t.getV 15 = 0) ∧
      t.dirty = true ∧
      UnchangedBut (fun p => p = .v 15 ∨ p = .dirty ∨ ∃ px py, p = .pixel px py) s t) ∧
    (0 < n.toNat → 4095 < s.i.toNat + n.toNat - 1 →
      TakesFatal (.drw x y n) s .outOfBounds (some (max s.i.toNat 4096)))

/-- Two identical draws with no other draw between them restore the framebuffer, and the second reports 1
exactly when a covered pixel was off before the first (44_display.md section 3, laws (a) and (b)). `t` is
what the first draw leaves and `t'` what the second finds: the framebuffer of `t`, the same position (in any
registers, so `V[15]` as a position is included where it holds the same value again) and the same sprite
bytes. That bit 7 of a row is its leftmost column is the model's choice (the spec's decision D4; log 8). -/
def Obligations.DrawingTwiceRestoresTheFrame : Prop :=
  ∀ (x y x' y' n : Nibble) (s t t' u : State),
    let rows (r : State) := (List.range n.toNat).map (fun k => r.peek (effAddr r k))
    let spanInside (r : State) := n.toNat = 0 ∨ r.i.toNat + n.toNat - 1 ≤ 4095
    spanInside s → exec (.drw x y n) s = .next t →
    t'.fb = t.fb → rows t' = rows s → spanInside t' → t'.getV x' = s.getV x → t'.getV y' = s.getV y →
    exec (.drw x' y' n) t' = .next u →
      u.fb = s.fb ∧
      (u.getV 15 = 1 ↔ ∃ px py, px < 64 ∧ py < 32 ∧ pixel s.fb px py = false ∧
        Covers (rows s) (s.getV x).toNat (s.getV y).toNat px py)

/-! ## Keys and timers (45_keys_timers.md) -/

/-- The key skips; an identifier above 15 is no key (the spec's decision D11). -/
def Obligations.KeySkipsTestTheHeldKey : Prop :=
  ∀ (x : Nibble) (s : State),
    (decode (0xE#4 ++ (x ++ 0x9E#8)) = .ok (.skp x) ∧
      ∃ t, exec (.skp x) s = .next t ∧ (KeyHeld s (s.getV x) → t.pc = s.pc + 2) ∧
        (¬ KeyHeld s (s.getV x) → t.pc = s.pc) ∧ UnchangedBut (fun p => p = .pc) s t) ∧
    (decode (0xE#4 ++ (x ++ 0xA1#8)) = .ok (.sknp x) ∧
      ∃ t, exec (.sknp x) s = .next t ∧ (¬ KeyHeld s (s.getV x) → t.pc = s.pc + 2) ∧
        (KeyHeld s (s.getV x) → t.pc = s.pc) ∧ UnchangedBut (fun p => p = .pc) s t)

/-- R242, R244, R245. -/
def Obligations.TimersAreReadAndWritten : Prop :=
  ∀ (x : Nibble) (s : State),
    (decode (0xF#4 ++ (x ++ 0x07#8)) = .ok (.ldVxDt x) ∧
      ∃ t, exec (.ldVxDt x) s = .next t ∧ t.getV x = s.dt ∧ UnchangedBut (fun p => p = .v x) s t) ∧
    (decode (0xF#4 ++ (x ++ 0x15#8)) = .ok (.ldDtVx x) ∧
      ∃ t, exec (.ldDtVx x) s = .next t ∧ t.dt = s.getV x ∧ UnchangedBut (fun p => p = .dt) s t) ∧
    (decode (0xF#4 ++ (x ++ 0x18#8)) = .ok (.ldStVx x) ∧
      ∃ t, exec (.ldStVx x) s = .next t ∧ t.st = s.getV x ∧ UnchangedBut (fun p => p = .st) s t)

/-- `Fx0A`: with a key held it completes with the most recently pressed key; with none held the core
enters `WaitKey` (the spec's decision D12). -/
def Obligations.KeyReadCompletesOrWaits : Prop :=
  ∀ (x : Nibble) (s : State), decode (0xF#4 ++ (x ++ 0x0A#8)) = .ok (.ldVxK x) ∧
    ((∃ k : Nibble, s.key[k.toNat]'k.isLt = true) → ∃ t, exec (.ldVxK x) s = .next t ∧
      (t.getV x).toNat = s.lastKey.toNat ∧ UnchangedBut (fun p => p = .v x) s t) ∧
    ((∀ k : Nibble, s.key[k.toNat]'k.isLt = false) → ∃ t, exec (.ldVxK x) s = .next t ∧
      t.run = .waitKey ∧ UnchangedBut (fun p => p = .run) s t)

/-! ## The cycle (40_cycle.md) and the tick (60_exceptions.md) -/

/-- A step runs the decoded instruction: when the core is due, running and not asked to stop, and the two
bytes at `pc` decode, the step is `exec` of that instruction on the state with `IR` the word and `pc`
advanced by 2, followed by the completion of the cycle (R130 to R133). The byte order is log 7. -/
def Obligations.StepRunsTheDecodedInstruction : Prop :=
  ∀ (s s' : State) (i : Instr), CoreDue s s' → s'.run = .running → s'.stopReq = false →
    s'.pc.toNat ≤ 4094 → decode (s'.peek s'.pc.toNat ++ s'.peek (s'.pc.toNat + 1)) = .ok i →
    ∃ t, exec i { s' with ir := s'.peek s'.pc.toNat ++ s'.peek (s'.pc.toNat + 1), pc := s'.pc + 2 } = .next t ∧
      step s = .next (if t.run = .running then completeCycle t else t)

/-- The completion of a cycle (40_cycle.md section 4, 60_exceptions.md section 4): before the tenth only
the counter moves; the tenth returns it to 0, counts both timers down to no less than 0 and, when the
frame is dirty, emits one `Paint` of the lit pixels and clears the flag (the spec's decisions D13, D24). -/
def Obligations.TenthCycleEndsTheTick : Prop :=
  ∀ s : State,
    (s.cyc.val < 9 → (completeCycle s).cyc.val = s.cyc.val + 1 ∧
      UnchangedBut (fun p => p = .cyc) s (completeCycle s)) ∧
    (s.cyc.val = 9 → (completeCycle s).cyc.val = 0 ∧
      (completeCycle s).dt.toNat = s.dt.toNat - 1 ∧ (completeCycle s).st.toNat = s.st.toNat - 1 ∧
      (completeCycle s).dirty = false ∧
      (s.dirty = false → (completeCycle s).outbox = s.outbox) ∧
      (s.dirty = true → ∃ lit : PixelSet, (completeCycle s).outbox = s.outbox ++ [.paint lit 64 32] ∧
        ∀ px py, px < 64 → py < 32 → pixel lit px py = pixel s.fb px py) ∧
      UnchangedBut (fun p => p = .cyc ∨ p = .dt ∨ p = .st ∨ p = .dirty ∨ p = .outbox) s (completeCycle s))

/-- An invalid word is skipped: `IR` and `pc` as after any fetch, a report when `DIAG` is set, the cycle
completes (60_exceptions.md section 1, the spec's decision D16). That the byte at `pc` is the high half of
the word is the model's choice (the spec's decision D2; log 7). -/
def Obligations.InvalidWordIsSkipped : Prop :=
  ∀ (s s' : State) (e : DecodeError), CoreDue s s' → s'.run = .running → s'.stopReq = false →
    s'.pc.toNat ≤ 4094 → decode (s'.peek s'.pc.toNat ++ s'.peek (s'.pc.toNat + 1)) = .error e →
    ∃ t, step s = .next (completeCycle t) ∧ t.pc = s'.pc + 2 ∧
      t.ir = s'.peek s'.pc.toNat ++ s'.peek (s'.pc.toNat + 1) ∧
      (s'.config.diag = false → t.outbox = s'.outbox) ∧
      (s'.config.diag = true → t.outbox = s'.outbox ++ [.invalidReport s'.pc t.ir]) ∧
      UnchangedBut (fun p => p = .pc ∨ p = .ir ∨ p = .outbox) s' t

/-- A fetch outside Memory halts the core with nothing else written, `pc` included (40_cycle.md section 1,
the spec's decision D9). The record's opcode is unspecified and not claimed (log 2). -/
def Obligations.FetchOutsideMemoryHalts : Prop :=
  ∀ s s' : State, CoreDue s s' → s'.run = .running → s'.stopReq = false → 4095 ≤ s'.pc.toNat →
    ∃ t record, step s = .next t ∧ t.run = .halted (.fatal .outOfBounds) ∧ t.err = some record ∧
      record.kind = .outOfBounds ∧ record.addr = s'.pc ∧
      record.maddr = some (if s'.pc.toNat = 4095 then 4096 else s'.pc.toNat) ∧
      t.outbox = s'.outbox ++ [.errorReport record] ∧
      UnchangedBut (fun p => p = .run ∨ p = .err ∨ p = .outbox ∨ p = .draws) s' t

/-- Over all instructions: the exception an instruction takes is the one that is its own, and it leaves
everything but `RUN`, `ERR` and the report unchanged (40_cycle.md section 2, 60_exceptions.md section 1;
the spec's decision D9). -/
def Obligations.FatalExceptionsArePrecise : Prop :=
  ∀ (i : Instr) (s t : State) (k : FatalKind), s.run = .running → exec i s = .next t →
    t.run = .halted (.fatal k) → fatalOf i = some k ∧ UnchangedBut fatalParts s t

/-- A stop request is sampled before the fetch: the core halts and does nothing else (60_exceptions.md
section 2). In `WaitKey` it ends the wait in the same way, `V[x]` unwritten (40_cycle.md section 3). -/
def Obligations.StopRequestHaltsAtTheBoundary : Prop :=
  ∀ s s' : State, CoreDue s s' → s'.run = .running ∨ s'.run = .waitKey → s'.stopReq = true →
    ∃ t, step s = .next t ∧ t.run = .halted .stopped ∧ UnchangedBut (fun p => p = .run) s' t

/-- The key wait (40_cycle.md section 3): with no key held the core's turn changes nothing; with one held
the register of the waiting instruction receives the most recently pressed key and the cycle completes.
That a held core's turn is a step that changes nothing is the model's form of "no step" (log 12). -/
def Obligations.WaitEndsWhenAKeyIsHeld : Prop :=
  ∀ s s' : State, CoreDue s s' → s'.run = .waitKey → s'.stopReq = false →
    ((∀ k : Nibble, s'.key[k.toNat]'k.isLt = false) → step s = .next s') ∧
    ((∃ k : Nibble, s'.key[k.toNat]'k.isLt = true) → ∃ t, step s = .next (completeCycle t) ∧
      t.run = .running ∧ (t.getV (s'.ir.extractLsb' 8 4)).toNat = s'.lastKey.toNat ∧
      UnchangedBut (fun p => p = .run ∨ p = .v (s'.ir.extractLsb' 8 4)) s' t)

/-- A halted core has no step: the model's step stops with the fault that names the cause (60_exceptions.md
section 2; the fault is the model's choice, log 11). -/
def Obligations.HaltedCoreHasNoStep : Prop :=
  ∀ (s s' : State) (c : HaltCause), CoreDue s s' → s'.run = .halted c → step s = .fault (.halted c)

/-- Halted is terminal: no step but the host's `Reset` leaves it, and it keeps its cause (60_exceptions.md
section 2, the spec's decision D17). -/
def Obligations.OnlyResetLeavesHalted : Prop :=
  ∀ (s t : State) (c : HaltCause), s.run = .halted c → step s = .next t →
    (∀ rom rest, s.schedule ≠ .host (.reset rom) :: rest) → t.run = .halted c

/-! ## The host (60_exceptions.md sections 5 and 6, 70_reset_and_hazards.md) -/

/-- The key steps: one flag is written, the latch follows a press only (the spec's decision D18). -/
def Obligations.KeyStepsWriteOneFlag : Prop :=
  ∀ (s : State) (k : Nibble) (rest : List Turn),
    (s.schedule = .host (.keyDown k) :: rest → ∃ t, step s = .next t ∧ t.schedule = rest ∧
      (∀ j : Nibble, t.key[j.toNat]'j.isLt = if j = k then true else s.key[j.toNat]'j.isLt) ∧ t.lastKey = k ∧
      UnchangedBut (fun p => p = .key ∨ p = .lastKey ∨ p = .schedule) s t) ∧
    (s.schedule = .host (.keyUp k) :: rest → ∃ t, step s = .next t ∧ t.schedule = rest ∧
      (∀ j : Nibble, t.key[j.toNat]'j.isLt = if j = k then false else s.key[j.toNat]'j.isLt) ∧
      UnchangedBut (fun p => p = .key ∨ p = .schedule) s t)

/-- The stop request sets the bit and nothing else, whatever the core is doing (60_exceptions.md section 2). -/
def Obligations.StopRequestSetsTheBit : Prop :=
  ∀ (s : State) (rest : List Turn), s.schedule = .host .stopReq :: rest →
    ∃ t, step s = .next t ∧ t.stopReq = true ∧ t.schedule = rest ∧
      UnchangedBut (fun p => p = .stopReq ∨ p = .schedule) s t

/-- A stop request is sticky: no step but the host's `Reset` withdraws it (60_exceptions.md section 2, the
spec's decision D25). -/
def Obligations.StopRequestIsSticky : Prop :=
  ∀ s t : State, s.stopReq = true → step s = .next t →
    (∀ rom rest, s.schedule ≠ .host (.reset rom) :: rest) → t.stopReq = true

/-- `Reset(rom)` installs the initial state from any state: in Memory the font, the image at 0x200, 0
elsewhere (70_reset_and_hazards.md section 1; the fill, the framebuffer, DIRTY and CYC are the spec's
decision D6, log 10; that the configuration's `FONT` is kept is log 13). The elements that the spec leaves
unspecified are not claimed (log 9). -/
def Obligations.ResetInstallsTheImage : Prop :=
  ∀ (s : State) (rom : List Byte) (rest : List Turn),
    s.schedule = .host (.reset rom) :: rest → rom.length ≤ 3584 →
    ∃ t, step s = .next t ∧
      (∀ a, (h : a < 80) → t.peek a = s.config.font[a]) ∧
      (∀ k, (h : k < rom.length) → t.peek (0x200 + k) = rom[k]) ∧
      (∀ a, 80 ≤ a → a < 4096 → a < 0x200 ∨ 0x200 + rom.length ≤ a → t.peek a = 0) ∧
      (∀ r, t.getV r = 0) ∧ t.i = 0 ∧ t.dt = 0 ∧ t.st = 0 ∧ t.pc = 0x200 ∧ t.sp.val = 0 ∧
      (∀ px py, pixel t.fb px py = false) ∧ t.dirty = false ∧
      (∀ k : Nibble, t.key[k.toNat]'k.isLt = false) ∧ t.cyc.val = 0 ∧ t.stopReq = false ∧ t.err = none ∧
      t.run = .running

/-- An image longer than 3584 bytes is refused: the model's form of "the model refuses it"
(60_exceptions.md section 5; log 15). -/
def Obligations.OverlongImageIsRefused : Prop :=
  ∀ (s : State) (rom : List Byte) (rest : List Turn),
    s.schedule = .host (.reset rom) :: rest → 3584 < rom.length → step s = .refused (.imageTooLong rom.length)

/-- The state after reset, each element for which the spec states a value (10_state.md section 1): the font
bytes are those of the configuration, whatever they are (log 6); the framebuffer, DIRTY, CYC and the fill
are the spec's decision D6 (log 10). STACK, LASTKEY and IR, unspecified, are not claimed (log 9). -/
def Obligations.ResetStateHasTheStatedValues : Prop :=
  State.reset.pc = 0x200 ∧ (∀ r, State.reset.getV r = 0) ∧ State.reset.i = 0 ∧ State.reset.dt = 0 ∧
  State.reset.st = 0 ∧ State.reset.sp.val = 0 ∧ State.reset.run = .running ∧ State.reset.cyc.val = 0 ∧
  State.reset.stopReq = false ∧ State.reset.err = none ∧ State.reset.dirty = false ∧
  (∀ px py, px < 64 → py < 32 → pixel State.reset.fb px py = false) ∧
  (∀ k : Nibble, State.reset.key[k.toNat]'k.isLt = false) ∧
  (∀ a, (h : a < 80) → State.reset.peek a = State.reset.config.font[a]) ∧
  (∀ a, 80 ≤ a → a < 4096 → State.reset.peek a = 0)

/-! ## Whole-machine rules -/

/-- Headline: what holds at every step boundary is kept by every step, the core's and the host's: memory
stays canonical, `pc` stays within the bound the spec derives, every held return address is at most 4096,
`ERR` is written exactly on a fatal halt, and `WaitKey` holds an `Fx0A` (10_state.md sections 2, 3, 6). -/
def Obligations.EveryStepKeepsTheInvariant : Prop :=
  ∀ s t : State, MachineInv s → step s = .next t → MachineInv t

/-- The invariant holds after reset (it uses the reset memory, and no open reset value). -/
def Obligations.ResetMeetsTheInvariant : Prop := MachineInv State.reset

/-- The core never writes the keyboard state or the stop request (10_state.md sections 5 and 6,
60_exceptions.md section 5). -/
def Obligations.CoreNeverWritesTheHostsInputs : Prop :=
  ∀ s t : State, coreStep s = .next t → t.key = s.key ∧ t.lastKey = s.lastKey ∧ t.stopReq = s.stopReq

/-- Events leave in the order they were emitted: a core step only adds at the end, and the host takes the
oldest (20_memory.md section 4). The outbox is the model's own field (log 5). -/
def Obligations.EventsAreDeliveredInOrder : Prop :=
  (∀ s t : State, coreStep s = .next t → ∃ new, t.outbox = s.outbox ++ new) ∧
  (∀ (s : State) (e : Event) (later : List Event) (rest : List Turn), s.outbox = e :: later →
    s.schedule = .host .takeEvent :: rest → ∃ t, step s = .next t ∧ t.outbox = later ∧
      UnchangedBut (fun p => p = .outbox ∨ p = .schedule) s t)

/-- `DIAG` is fixed for a run and its only effect is the report (60_exceptions.md section 5, R279): two
states that differ in it step to states that differ in it and in the reports of invalid words only. `FONT` is
as constant as `DIAG` (10_state.md R49). That the host's `Reset` too keeps both is the model's choice
(log 13). -/
def Obligations.DiagnosticsChangeNoTransition : Prop :=
  ∀ (s t : State) (d : Bool), step s = .next t →
    t.config = s.config ∧
    ∃ events, events.filter (!isInvalidReport ·) = t.outbox.filter (!isInvalidReport ·) ∧
      step { s with config := { s.config with diag := d } } =
        .next { t with config := { t.config with diag := d }, outbox := events }

/-- Nothing depends on the sound timer: two states that differ in `ST` only step to states that differ in
`ST` only (10_state.md section 2; that it counts down at all is the spec's decision D13). -/
def Obligations.SoundTimerIsUnobservable : Prop :=
  ∀ (s t : State) (b : Byte), step s = .next t → ∃ b', step { s with st := b } = .next { t with st := b' }
end

