-- ==== Sys2Proof/Laws/State.lean ====
section
/-! SUPPORT. One lemma per field for each named update of the state, so that no proof unfolds a record
update. -/

namespace Sys2Proof.Machine

/-! `setV` -/

@[simp] theorem State.setV_v (s : State) (x : Nibble) (b : Byte) : (s.setV x b).v = s.v.set x.toNat b x.isLt := rfl
@[simp] theorem State.setV_i (s : State) (x : Nibble) (b : Byte) : (s.setV x b).i = s.i := rfl
@[simp] theorem State.setV_pc (s : State) (x : Nibble) (b : Byte) : (s.setV x b).pc = s.pc := rfl
@[simp] theorem State.setV_dt (s : State) (x : Nibble) (b : Byte) : (s.setV x b).dt = s.dt := rfl
@[simp] theorem State.setV_st (s : State) (x : Nibble) (b : Byte) : (s.setV x b).st = s.st := rfl
@[simp] theorem State.setV_sp (s : State) (x : Nibble) (b : Byte) : (s.setV x b).sp = s.sp := rfl
@[simp] theorem State.setV_stack (s : State) (x : Nibble) (b : Byte) : (s.setV x b).stack = s.stack := rfl
@[simp] theorem State.setV_mem (s : State) (x : Nibble) (b : Byte) : (s.setV x b).mem = s.mem := rfl
@[simp] theorem State.setV_fb (s : State) (x : Nibble) (b : Byte) : (s.setV x b).fb = s.fb := rfl
@[simp] theorem State.setV_dirty (s : State) (x : Nibble) (b : Byte) : (s.setV x b).dirty = s.dirty := rfl
@[simp] theorem State.setV_key (s : State) (x : Nibble) (b : Byte) : (s.setV x b).key = s.key := rfl
@[simp] theorem State.setV_lastKey (s : State) (x : Nibble) (b : Byte) : (s.setV x b).lastKey = s.lastKey := rfl
@[simp] theorem State.setV_run (s : State) (x : Nibble) (b : Byte) : (s.setV x b).run = s.run := rfl
@[simp] theorem State.setV_ir (s : State) (x : Nibble) (b : Byte) : (s.setV x b).ir = s.ir := rfl
@[simp] theorem State.setV_cyc (s : State) (x : Nibble) (b : Byte) : (s.setV x b).cyc = s.cyc := rfl
@[simp] theorem State.setV_stopReq (s : State) (x : Nibble) (b : Byte) : (s.setV x b).stopReq = s.stopReq := rfl
@[simp] theorem State.setV_err (s : State) (x : Nibble) (b : Byte) : (s.setV x b).err = s.err := rfl
@[simp] theorem State.setV_config (s : State) (x : Nibble) (b : Byte) : (s.setV x b).config = s.config := rfl
@[simp] theorem State.setV_draws (s : State) (x : Nibble) (b : Byte) : (s.setV x b).draws = s.draws := rfl
@[simp] theorem State.setV_outbox (s : State) (x : Nibble) (b : Byte) : (s.setV x b).outbox = s.outbox := rfl
@[simp] theorem State.setV_schedule (s : State) (x : Nibble) (b : Byte) : (s.setV x b).schedule = s.schedule := rfl
@[simp] theorem State.setV_peek (s : State) (x : Nibble) (b : Byte) (q : Nat) : (s.setV x b).peek q = s.peek q := rfl
@[simp] theorem State.setV_stackEntry (s : State) (x : Nibble) (b : Byte) (q : Nat) : (s.setV x b).stackEntry q = s.stackEntry q := rfl

/-! `setI` -/

@[simp] theorem State.setI_v (s : State) (w : Word16) : (s.setI w).v = s.v := rfl
@[simp] theorem State.setI_i (s : State) (w : Word16) : (s.setI w).i = w := rfl
@[simp] theorem State.setI_pc (s : State) (w : Word16) : (s.setI w).pc = s.pc := rfl
@[simp] theorem State.setI_dt (s : State) (w : Word16) : (s.setI w).dt = s.dt := rfl
@[simp] theorem State.setI_st (s : State) (w : Word16) : (s.setI w).st = s.st := rfl
@[simp] theorem State.setI_sp (s : State) (w : Word16) : (s.setI w).sp = s.sp := rfl
@[simp] theorem State.setI_stack (s : State) (w : Word16) : (s.setI w).stack = s.stack := rfl
@[simp] theorem State.setI_mem (s : State) (w : Word16) : (s.setI w).mem = s.mem := rfl
@[simp] theorem State.setI_fb (s : State) (w : Word16) : (s.setI w).fb = s.fb := rfl
@[simp] theorem State.setI_dirty (s : State) (w : Word16) : (s.setI w).dirty = s.dirty := rfl
@[simp] theorem State.setI_key (s : State) (w : Word16) : (s.setI w).key = s.key := rfl
@[simp] theorem State.setI_lastKey (s : State) (w : Word16) : (s.setI w).lastKey = s.lastKey := rfl
@[simp] theorem State.setI_run (s : State) (w : Word16) : (s.setI w).run = s.run := rfl
@[simp] theorem State.setI_ir (s : State) (w : Word16) : (s.setI w).ir = s.ir := rfl
@[simp] theorem State.setI_cyc (s : State) (w : Word16) : (s.setI w).cyc = s.cyc := rfl
@[simp] theorem State.setI_stopReq (s : State) (w : Word16) : (s.setI w).stopReq = s.stopReq := rfl
@[simp] theorem State.setI_err (s : State) (w : Word16) : (s.setI w).err = s.err := rfl
@[simp] theorem State.setI_config (s : State) (w : Word16) : (s.setI w).config = s.config := rfl
@[simp] theorem State.setI_draws (s : State) (w : Word16) : (s.setI w).draws = s.draws := rfl
@[simp] theorem State.setI_outbox (s : State) (w : Word16) : (s.setI w).outbox = s.outbox := rfl
@[simp] theorem State.setI_schedule (s : State) (w : Word16) : (s.setI w).schedule = s.schedule := rfl
@[simp] theorem State.setI_getV (s : State) (w : Word16) (q : Nibble) : (s.setI w).getV q = s.getV q := rfl
@[simp] theorem State.setI_peek (s : State) (w : Word16) (q : Nat) : (s.setI w).peek q = s.peek q := rfl
@[simp] theorem State.setI_stackEntry (s : State) (w : Word16) (q : Nat) : (s.setI w).stackEntry q = s.stackEntry q := rfl

/-! `setPc` -/

@[simp] theorem State.setPc_v (s : State) (w : Word16) : (s.setPc w).v = s.v := rfl
@[simp] theorem State.setPc_i (s : State) (w : Word16) : (s.setPc w).i = s.i := rfl
@[simp] theorem State.setPc_pc (s : State) (w : Word16) : (s.setPc w).pc = w := rfl
@[simp] theorem State.setPc_dt (s : State) (w : Word16) : (s.setPc w).dt = s.dt := rfl
@[simp] theorem State.setPc_st (s : State) (w : Word16) : (s.setPc w).st = s.st := rfl
@[simp] theorem State.setPc_sp (s : State) (w : Word16) : (s.setPc w).sp = s.sp := rfl
@[simp] theorem State.setPc_stack (s : State) (w : Word16) : (s.setPc w).stack = s.stack := rfl
@[simp] theorem State.setPc_mem (s : State) (w : Word16) : (s.setPc w).mem = s.mem := rfl
@[simp] theorem State.setPc_fb (s : State) (w : Word16) : (s.setPc w).fb = s.fb := rfl
@[simp] theorem State.setPc_dirty (s : State) (w : Word16) : (s.setPc w).dirty = s.dirty := rfl
@[simp] theorem State.setPc_key (s : State) (w : Word16) : (s.setPc w).key = s.key := rfl
@[simp] theorem State.setPc_lastKey (s : State) (w : Word16) : (s.setPc w).lastKey = s.lastKey := rfl
@[simp] theorem State.setPc_run (s : State) (w : Word16) : (s.setPc w).run = s.run := rfl
@[simp] theorem State.setPc_ir (s : State) (w : Word16) : (s.setPc w).ir = s.ir := rfl
@[simp] theorem State.setPc_cyc (s : State) (w : Word16) : (s.setPc w).cyc = s.cyc := rfl
@[simp] theorem State.setPc_stopReq (s : State) (w : Word16) : (s.setPc w).stopReq = s.stopReq := rfl
@[simp] theorem State.setPc_err (s : State) (w : Word16) : (s.setPc w).err = s.err := rfl
@[simp] theorem State.setPc_config (s : State) (w : Word16) : (s.setPc w).config = s.config := rfl
@[simp] theorem State.setPc_draws (s : State) (w : Word16) : (s.setPc w).draws = s.draws := rfl
@[simp] theorem State.setPc_outbox (s : State) (w : Word16) : (s.setPc w).outbox = s.outbox := rfl
@[simp] theorem State.setPc_schedule (s : State) (w : Word16) : (s.setPc w).schedule = s.schedule := rfl
@[simp] theorem State.setPc_getV (s : State) (w : Word16) (q : Nibble) : (s.setPc w).getV q = s.getV q := rfl
@[simp] theorem State.setPc_peek (s : State) (w : Word16) (q : Nat) : (s.setPc w).peek q = s.peek q := rfl
@[simp] theorem State.setPc_stackEntry (s : State) (w : Word16) (q : Nat) : (s.setPc w).stackEntry q = s.stackEntry q := rfl

/-! `setDt` -/

@[simp] theorem State.setDt_v (s : State) (b : Byte) : (s.setDt b).v = s.v := rfl
@[simp] theorem State.setDt_i (s : State) (b : Byte) : (s.setDt b).i = s.i := rfl
@[simp] theorem State.setDt_pc (s : State) (b : Byte) : (s.setDt b).pc = s.pc := rfl
@[simp] theorem State.setDt_dt (s : State) (b : Byte) : (s.setDt b).dt = b := rfl
@[simp] theorem State.setDt_st (s : State) (b : Byte) : (s.setDt b).st = s.st := rfl
@[simp] theorem State.setDt_sp (s : State) (b : Byte) : (s.setDt b).sp = s.sp := rfl
@[simp] theorem State.setDt_stack (s : State) (b : Byte) : (s.setDt b).stack = s.stack := rfl
@[simp] theorem State.setDt_mem (s : State) (b : Byte) : (s.setDt b).mem = s.mem := rfl
@[simp] theorem State.setDt_fb (s : State) (b : Byte) : (s.setDt b).fb = s.fb := rfl
@[simp] theorem State.setDt_dirty (s : State) (b : Byte) : (s.setDt b).dirty = s.dirty := rfl
@[simp] theorem State.setDt_key (s : State) (b : Byte) : (s.setDt b).key = s.key := rfl
@[simp] theorem State.setDt_lastKey (s : State) (b : Byte) : (s.setDt b).lastKey = s.lastKey := rfl
@[simp] theorem State.setDt_run (s : State) (b : Byte) : (s.setDt b).run = s.run := rfl
@[simp] theorem State.setDt_ir (s : State) (b : Byte) : (s.setDt b).ir = s.ir := rfl
@[simp] theorem State.setDt_cyc (s : State) (b : Byte) : (s.setDt b).cyc = s.cyc := rfl
@[simp] theorem State.setDt_stopReq (s : State) (b : Byte) : (s.setDt b).stopReq = s.stopReq := rfl
@[simp] theorem State.setDt_err (s : State) (b : Byte) : (s.setDt b).err = s.err := rfl
@[simp] theorem State.setDt_config (s : State) (b : Byte) : (s.setDt b).config = s.config := rfl
@[simp] theorem State.setDt_draws (s : State) (b : Byte) : (s.setDt b).draws = s.draws := rfl
@[simp] theorem State.setDt_outbox (s : State) (b : Byte) : (s.setDt b).outbox = s.outbox := rfl
@[simp] theorem State.setDt_schedule (s : State) (b : Byte) : (s.setDt b).schedule = s.schedule := rfl
@[simp] theorem State.setDt_getV (s : State) (b : Byte) (q : Nibble) : (s.setDt b).getV q = s.getV q := rfl
@[simp] theorem State.setDt_peek (s : State) (b : Byte) (q : Nat) : (s.setDt b).peek q = s.peek q := rfl
@[simp] theorem State.setDt_stackEntry (s : State) (b : Byte) (q : Nat) : (s.setDt b).stackEntry q = s.stackEntry q := rfl

/-! `setSt` -/

@[simp] theorem State.setSt_v (s : State) (b : Byte) : (s.setSt b).v = s.v := rfl
@[simp] theorem State.setSt_i (s : State) (b : Byte) : (s.setSt b).i = s.i := rfl
@[simp] theorem State.setSt_pc (s : State) (b : Byte) : (s.setSt b).pc = s.pc := rfl
@[simp] theorem State.setSt_dt (s : State) (b : Byte) : (s.setSt b).dt = s.dt := rfl
@[simp] theorem State.setSt_st (s : State) (b : Byte) : (s.setSt b).st = b := rfl
@[simp] theorem State.setSt_sp (s : State) (b : Byte) : (s.setSt b).sp = s.sp := rfl
@[simp] theorem State.setSt_stack (s : State) (b : Byte) : (s.setSt b).stack = s.stack := rfl
@[simp] theorem State.setSt_mem (s : State) (b : Byte) : (s.setSt b).mem = s.mem := rfl
@[simp] theorem State.setSt_fb (s : State) (b : Byte) : (s.setSt b).fb = s.fb := rfl
@[simp] theorem State.setSt_dirty (s : State) (b : Byte) : (s.setSt b).dirty = s.dirty := rfl
@[simp] theorem State.setSt_key (s : State) (b : Byte) : (s.setSt b).key = s.key := rfl
@[simp] theorem State.setSt_lastKey (s : State) (b : Byte) : (s.setSt b).lastKey = s.lastKey := rfl
@[simp] theorem State.setSt_run (s : State) (b : Byte) : (s.setSt b).run = s.run := rfl
@[simp] theorem State.setSt_ir (s : State) (b : Byte) : (s.setSt b).ir = s.ir := rfl
@[simp] theorem State.setSt_cyc (s : State) (b : Byte) : (s.setSt b).cyc = s.cyc := rfl
@[simp] theorem State.setSt_stopReq (s : State) (b : Byte) : (s.setSt b).stopReq = s.stopReq := rfl
@[simp] theorem State.setSt_err (s : State) (b : Byte) : (s.setSt b).err = s.err := rfl
@[simp] theorem State.setSt_config (s : State) (b : Byte) : (s.setSt b).config = s.config := rfl
@[simp] theorem State.setSt_draws (s : State) (b : Byte) : (s.setSt b).draws = s.draws := rfl
@[simp] theorem State.setSt_outbox (s : State) (b : Byte) : (s.setSt b).outbox = s.outbox := rfl
@[simp] theorem State.setSt_schedule (s : State) (b : Byte) : (s.setSt b).schedule = s.schedule := rfl
@[simp] theorem State.setSt_getV (s : State) (b : Byte) (q : Nibble) : (s.setSt b).getV q = s.getV q := rfl
@[simp] theorem State.setSt_peek (s : State) (b : Byte) (q : Nat) : (s.setSt b).peek q = s.peek q := rfl
@[simp] theorem State.setSt_stackEntry (s : State) (b : Byte) (q : Nat) : (s.setSt b).stackEntry q = s.stackEntry q := rfl

/-! `setRun` -/

@[simp] theorem State.setRun_v (s : State) (r : RunState) : (s.setRun r).v = s.v := rfl
@[simp] theorem State.setRun_i (s : State) (r : RunState) : (s.setRun r).i = s.i := rfl
@[simp] theorem State.setRun_pc (s : State) (r : RunState) : (s.setRun r).pc = s.pc := rfl
@[simp] theorem State.setRun_dt (s : State) (r : RunState) : (s.setRun r).dt = s.dt := rfl
@[simp] theorem State.setRun_st (s : State) (r : RunState) : (s.setRun r).st = s.st := rfl
@[simp] theorem State.setRun_sp (s : State) (r : RunState) : (s.setRun r).sp = s.sp := rfl
@[simp] theorem State.setRun_stack (s : State) (r : RunState) : (s.setRun r).stack = s.stack := rfl
@[simp] theorem State.setRun_mem (s : State) (r : RunState) : (s.setRun r).mem = s.mem := rfl
@[simp] theorem State.setRun_fb (s : State) (r : RunState) : (s.setRun r).fb = s.fb := rfl
@[simp] theorem State.setRun_dirty (s : State) (r : RunState) : (s.setRun r).dirty = s.dirty := rfl
@[simp] theorem State.setRun_key (s : State) (r : RunState) : (s.setRun r).key = s.key := rfl
@[simp] theorem State.setRun_lastKey (s : State) (r : RunState) : (s.setRun r).lastKey = s.lastKey := rfl
@[simp] theorem State.setRun_run (s : State) (r : RunState) : (s.setRun r).run = r := rfl
@[simp] theorem State.setRun_ir (s : State) (r : RunState) : (s.setRun r).ir = s.ir := rfl
@[simp] theorem State.setRun_cyc (s : State) (r : RunState) : (s.setRun r).cyc = s.cyc := rfl
@[simp] theorem State.setRun_stopReq (s : State) (r : RunState) : (s.setRun r).stopReq = s.stopReq := rfl
@[simp] theorem State.setRun_err (s : State) (r : RunState) : (s.setRun r).err = s.err := rfl
@[simp] theorem State.setRun_config (s : State) (r : RunState) : (s.setRun r).config = s.config := rfl
@[simp] theorem State.setRun_draws (s : State) (r : RunState) : (s.setRun r).draws = s.draws := rfl
@[simp] theorem State.setRun_outbox (s : State) (r : RunState) : (s.setRun r).outbox = s.outbox := rfl
@[simp] theorem State.setRun_schedule (s : State) (r : RunState) : (s.setRun r).schedule = s.schedule := rfl
@[simp] theorem State.setRun_getV (s : State) (r : RunState) (q : Nibble) : (s.setRun r).getV q = s.getV q := rfl
@[simp] theorem State.setRun_peek (s : State) (r : RunState) (q : Nat) : (s.setRun r).peek q = s.peek q := rfl
@[simp] theorem State.setRun_stackEntry (s : State) (r : RunState) (q : Nat) : (s.setRun r).stackEntry q = s.stackEntry q := rfl

/-! `setFb` -/

@[simp] theorem State.setFb_v (s : State) (g : Framebuffer) : (s.setFb g).v = s.v := rfl
@[simp] theorem State.setFb_i (s : State) (g : Framebuffer) : (s.setFb g).i = s.i := rfl
@[simp] theorem State.setFb_pc (s : State) (g : Framebuffer) : (s.setFb g).pc = s.pc := rfl
@[simp] theorem State.setFb_dt (s : State) (g : Framebuffer) : (s.setFb g).dt = s.dt := rfl
@[simp] theorem State.setFb_st (s : State) (g : Framebuffer) : (s.setFb g).st = s.st := rfl
@[simp] theorem State.setFb_sp (s : State) (g : Framebuffer) : (s.setFb g).sp = s.sp := rfl
@[simp] theorem State.setFb_stack (s : State) (g : Framebuffer) : (s.setFb g).stack = s.stack := rfl
@[simp] theorem State.setFb_mem (s : State) (g : Framebuffer) : (s.setFb g).mem = s.mem := rfl
@[simp] theorem State.setFb_fb (s : State) (g : Framebuffer) : (s.setFb g).fb = g := rfl
@[simp] theorem State.setFb_dirty (s : State) (g : Framebuffer) : (s.setFb g).dirty = true := rfl
@[simp] theorem State.setFb_key (s : State) (g : Framebuffer) : (s.setFb g).key = s.key := rfl
@[simp] theorem State.setFb_lastKey (s : State) (g : Framebuffer) : (s.setFb g).lastKey = s.lastKey := rfl
@[simp] theorem State.setFb_run (s : State) (g : Framebuffer) : (s.setFb g).run = s.run := rfl
@[simp] theorem State.setFb_ir (s : State) (g : Framebuffer) : (s.setFb g).ir = s.ir := rfl
@[simp] theorem State.setFb_cyc (s : State) (g : Framebuffer) : (s.setFb g).cyc = s.cyc := rfl
@[simp] theorem State.setFb_stopReq (s : State) (g : Framebuffer) : (s.setFb g).stopReq = s.stopReq := rfl
@[simp] theorem State.setFb_err (s : State) (g : Framebuffer) : (s.setFb g).err = s.err := rfl
@[simp] theorem State.setFb_config (s : State) (g : Framebuffer) : (s.setFb g).config = s.config := rfl
@[simp] theorem State.setFb_draws (s : State) (g : Framebuffer) : (s.setFb g).draws = s.draws := rfl
@[simp] theorem State.setFb_outbox (s : State) (g : Framebuffer) : (s.setFb g).outbox = s.outbox := rfl
@[simp] theorem State.setFb_schedule (s : State) (g : Framebuffer) : (s.setFb g).schedule = s.schedule := rfl
@[simp] theorem State.setFb_getV (s : State) (g : Framebuffer) (q : Nibble) : (s.setFb g).getV q = s.getV q := rfl
@[simp] theorem State.setFb_peek (s : State) (g : Framebuffer) (q : Nat) : (s.setFb g).peek q = s.peek q := rfl
@[simp] theorem State.setFb_stackEntry (s : State) (g : Framebuffer) (q : Nat) : (s.setFb g).stackEntry q = s.stackEntry q := rfl

/-! `emit` -/

@[simp] theorem State.emit_v (s : State) (e : Event) : (s.emit e).v = s.v := rfl
@[simp] theorem State.emit_i (s : State) (e : Event) : (s.emit e).i = s.i := rfl
@[simp] theorem State.emit_pc (s : State) (e : Event) : (s.emit e).pc = s.pc := rfl
@[simp] theorem State.emit_dt (s : State) (e : Event) : (s.emit e).dt = s.dt := rfl
@[simp] theorem State.emit_st (s : State) (e : Event) : (s.emit e).st = s.st := rfl
@[simp] theorem State.emit_sp (s : State) (e : Event) : (s.emit e).sp = s.sp := rfl
@[simp] theorem State.emit_stack (s : State) (e : Event) : (s.emit e).stack = s.stack := rfl
@[simp] theorem State.emit_mem (s : State) (e : Event) : (s.emit e).mem = s.mem := rfl
@[simp] theorem State.emit_fb (s : State) (e : Event) : (s.emit e).fb = s.fb := rfl
@[simp] theorem State.emit_dirty (s : State) (e : Event) : (s.emit e).dirty = s.dirty := rfl
@[simp] theorem State.emit_key (s : State) (e : Event) : (s.emit e).key = s.key := rfl
@[simp] theorem State.emit_lastKey (s : State) (e : Event) : (s.emit e).lastKey = s.lastKey := rfl
@[simp] theorem State.emit_run (s : State) (e : Event) : (s.emit e).run = s.run := rfl
@[simp] theorem State.emit_ir (s : State) (e : Event) : (s.emit e).ir = s.ir := rfl
@[simp] theorem State.emit_cyc (s : State) (e : Event) : (s.emit e).cyc = s.cyc := rfl
@[simp] theorem State.emit_stopReq (s : State) (e : Event) : (s.emit e).stopReq = s.stopReq := rfl
@[simp] theorem State.emit_err (s : State) (e : Event) : (s.emit e).err = s.err := rfl
@[simp] theorem State.emit_config (s : State) (e : Event) : (s.emit e).config = s.config := rfl
@[simp] theorem State.emit_draws (s : State) (e : Event) : (s.emit e).draws = s.draws := rfl
@[simp] theorem State.emit_outbox (s : State) (e : Event) : (s.emit e).outbox = s.outbox ++ [e] := rfl
@[simp] theorem State.emit_schedule (s : State) (e : Event) : (s.emit e).schedule = s.schedule := rfl
@[simp] theorem State.emit_getV (s : State) (e : Event) (q : Nibble) : (s.emit e).getV q = s.getV q := rfl
@[simp] theorem State.emit_peek (s : State) (e : Event) (q : Nat) : (s.emit e).peek q = s.peek q := rfl
@[simp] theorem State.emit_stackEntry (s : State) (e : Event) (q : Nat) : (s.emit e).stackEntry q = s.stackEntry q := rfl

/-! `drawn` -/

@[simp] theorem State.drawn_v (s : State) : (s.drawn).v = s.v := rfl
@[simp] theorem State.drawn_i (s : State) : (s.drawn).i = s.i := rfl
@[simp] theorem State.drawn_pc (s : State) : (s.drawn).pc = s.pc := rfl
@[simp] theorem State.drawn_dt (s : State) : (s.drawn).dt = s.dt := rfl
@[simp] theorem State.drawn_st (s : State) : (s.drawn).st = s.st := rfl
@[simp] theorem State.drawn_sp (s : State) : (s.drawn).sp = s.sp := rfl
@[simp] theorem State.drawn_stack (s : State) : (s.drawn).stack = s.stack := rfl
@[simp] theorem State.drawn_mem (s : State) : (s.drawn).mem = s.mem := rfl
@[simp] theorem State.drawn_fb (s : State) : (s.drawn).fb = s.fb := rfl
@[simp] theorem State.drawn_dirty (s : State) : (s.drawn).dirty = s.dirty := rfl
@[simp] theorem State.drawn_key (s : State) : (s.drawn).key = s.key := rfl
@[simp] theorem State.drawn_lastKey (s : State) : (s.drawn).lastKey = s.lastKey := rfl
@[simp] theorem State.drawn_run (s : State) : (s.drawn).run = s.run := rfl
@[simp] theorem State.drawn_ir (s : State) : (s.drawn).ir = s.ir := rfl
@[simp] theorem State.drawn_cyc (s : State) : (s.drawn).cyc = s.cyc := rfl
@[simp] theorem State.drawn_stopReq (s : State) : (s.drawn).stopReq = s.stopReq := rfl
@[simp] theorem State.drawn_err (s : State) : (s.drawn).err = s.err := rfl
@[simp] theorem State.drawn_config (s : State) : (s.drawn).config = s.config := rfl
@[simp] theorem State.drawn_draws (s : State) : (s.drawn).draws = s.draws + 1 := rfl
@[simp] theorem State.drawn_outbox (s : State) : (s.drawn).outbox = s.outbox := rfl
@[simp] theorem State.drawn_schedule (s : State) : (s.drawn).schedule = s.schedule := rfl
@[simp] theorem State.drawn_getV (s : State) (q : Nibble) : (s.drawn).getV q = s.getV q := rfl
@[simp] theorem State.drawn_peek (s : State) (q : Nat) : (s.drawn).peek q = s.peek q := rfl
@[simp] theorem State.drawn_stackEntry (s : State) (q : Nat) : (s.drawn).stackEntry q = s.stackEntry q := rfl

/-! `poke` -/

@[simp] theorem State.poke_v (s : State) (a : Nat) (b : Byte) : (s.poke a b).v = s.v := rfl
@[simp] theorem State.poke_i (s : State) (a : Nat) (b : Byte) : (s.poke a b).i = s.i := rfl
@[simp] theorem State.poke_pc (s : State) (a : Nat) (b : Byte) : (s.poke a b).pc = s.pc := rfl
@[simp] theorem State.poke_dt (s : State) (a : Nat) (b : Byte) : (s.poke a b).dt = s.dt := rfl
@[simp] theorem State.poke_st (s : State) (a : Nat) (b : Byte) : (s.poke a b).st = s.st := rfl
@[simp] theorem State.poke_sp (s : State) (a : Nat) (b : Byte) : (s.poke a b).sp = s.sp := rfl
@[simp] theorem State.poke_stack (s : State) (a : Nat) (b : Byte) : (s.poke a b).stack = s.stack := rfl
@[simp] theorem State.poke_mem (s : State) (a : Nat) (b : Byte) : (s.poke a b).mem = Memory.write s.config s.mem a b := rfl
@[simp] theorem State.poke_fb (s : State) (a : Nat) (b : Byte) : (s.poke a b).fb = s.fb := rfl
@[simp] theorem State.poke_dirty (s : State) (a : Nat) (b : Byte) : (s.poke a b).dirty = s.dirty := rfl
@[simp] theorem State.poke_key (s : State) (a : Nat) (b : Byte) : (s.poke a b).key = s.key := rfl
@[simp] theorem State.poke_lastKey (s : State) (a : Nat) (b : Byte) : (s.poke a b).lastKey = s.lastKey := rfl
@[simp] theorem State.poke_run (s : State) (a : Nat) (b : Byte) : (s.poke a b).run = s.run := rfl
@[simp] theorem State.poke_ir (s : State) (a : Nat) (b : Byte) : (s.poke a b).ir = s.ir := rfl
@[simp] theorem State.poke_cyc (s : State) (a : Nat) (b : Byte) : (s.poke a b).cyc = s.cyc := rfl
@[simp] theorem State.poke_stopReq (s : State) (a : Nat) (b : Byte) : (s.poke a b).stopReq = s.stopReq := rfl
@[simp] theorem State.poke_err (s : State) (a : Nat) (b : Byte) : (s.poke a b).err = s.err := rfl
@[simp] theorem State.poke_config (s : State) (a : Nat) (b : Byte) : (s.poke a b).config = s.config := rfl
@[simp] theorem State.poke_draws (s : State) (a : Nat) (b : Byte) : (s.poke a b).draws = s.draws := rfl
@[simp] theorem State.poke_outbox (s : State) (a : Nat) (b : Byte) : (s.poke a b).outbox = s.outbox := rfl
@[simp] theorem State.poke_schedule (s : State) (a : Nat) (b : Byte) : (s.poke a b).schedule = s.schedule := rfl
@[simp] theorem State.poke_getV (s : State) (a : Nat) (b : Byte) (q : Nibble) : (s.poke a b).getV q = s.getV q := rfl
@[simp] theorem State.poke_stackEntry (s : State) (a : Nat) (b : Byte) (q : Nat) : (s.poke a b).stackEntry q = s.stackEntry q := rfl

/-! Registers read back. -/

theorem State.setV_getV (s : State) (x r : Nibble) (b : Byte) :
    (s.setV x b).getV r = if r = x then b else s.getV r := by
  unfold State.setV State.getV
  rw [Vector.getElem_set]
  by_cases h : r = x
  · simp [h]
  · have : x.toNat ≠ r.toNat := fun e => h (BitVec.eq_of_toNat_eq e.symm)
    simp [h, this]

@[simp] theorem State.setV_getV_same (s : State) (x : Nibble) (b : Byte) : (s.setV x b).getV x = b := by
  simp [State.setV_getV]

theorem State.setV_getV_other (s : State) (x r : Nibble) (b : Byte) (h : r ≠ x) :
    (s.setV x b).getV r = s.getV r := by
  simp [State.setV_getV, h]

/-- Two states with the same registers and the same other fields are equal. -/
theorem State.v_ext {v w : Vector Byte 16} (h : ∀ r : Nibble, v[r.toNat]'r.isLt = w[r.toNat]'r.isLt) :
    v = w := by
  refine Vector.ext fun k hk => ?_
  have := h (BitVec.ofNat 4 k)
  simpa [Nat.mod_eq_of_lt hk] using this

end Sys2Proof.Machine
end

