-- ==== Sys2Proof/Laws/Display.lean ====
section
/-! SUPPORT. The framebuffer's primitives (44_display.md R222), pixel by pixel. -/

namespace Sys2Proof.Machine

/-- A coordinate is reduced before it is used. -/
theorem pixel_mod (fb : Framebuffer) (x y : Nat) : pixel fb (x % 64) (y % 32) = pixel fb x y := by
  simp [pixel]

/-- `SetPixel` toggles its pixel and leaves every other. -/
theorem pixel_setPixel (fb : Framebuffer) (a b x y : Nat) :
    pixel (setPixel fb a b).1 x y =
      if x % 64 = a % 64 ∧ y % 32 = b % 32 then !pixel fb x y else pixel fb x y := by
  unfold setPixel
  by_cases hy : y % 32 = b % 32
  · by_cases hx : x % 64 = a % 64
    · simp [pixel, hx, hy]
    · simp [pixel, hx, hy, Ne.symm hx]
  · simp [pixel, hy, Ne.symm hy]

@[simp] theorem setPixel_was (fb : Framebuffer) (a b : Nat) : (setPixel fb a b).2 = pixel fb a b := rfl

@[simp] theorem pixel_clearFb (x y : Nat) : pixel clearFb x y = false := by
  simp [pixel, clearFb]

/-- A framebuffer is its pixels. -/
theorem framebuffer_ext {f g : Framebuffer} (h : ∀ x y, x < 64 → y < 32 → pixel f x y = pixel g x y) :
    f = g := by
  refine Vector.ext fun y hy => Vector.ext fun x hx => ?_
  have := h x y hx hy
  simpa [pixel, Nat.mod_eq_of_lt hx, Nat.mod_eq_of_lt hy] using this

/-- Bit 7 is the leftmost column. -/
theorem spriteBit_eq (b : Byte) (c : Nat) : spriteBit b c = b.getLsbD (7 - c) := rfl

/-- What one column of a sprite row does to each pixel. -/
theorem pixel_drawBit (b : Byte) (px py c : Nat) (acc : Framebuffer × Bool) (x y : Nat) :
    pixel (drawBit b px py acc c).1 x y =
      if spriteBit b c = true ∧ x % 64 = (px + c) % 64 ∧ y % 32 = py % 32 then !pixel acc.1 x y
      else pixel acc.1 x y := by
  unfold drawBit
  by_cases h : spriteBit b c = true
  · simp [h, pixel_setPixel]
  · simp [h]

end Sys2Proof.Machine
end

