-- ==== Sys2Proof/Laws/Memory.lean ====
section
/-! SUPPORT. Memory: a read after a write, and every memory operation keeps the canonical form. -/

namespace Sys2Proof.Machine

theorem Memory.read_cons (c : Config) (b : Nat) (u : Byte) (m : Memory) (q : Nat) :
    Memory.read c ((b, u) :: m) q = if q = b then u else Memory.read c m q := rfl

theorem Memory.read_insertCell (c : Config) (m : Memory) (a q : Nat) (v : Byte) :
    Memory.read c (Memory.insertCell a v m) q = if q = a then v else Memory.read c m q := by
  induction m with
  | nil => rfl
  | cons cell m ih =>
    obtain ⟨b, u⟩ := cell
    rw [Memory.insertCell]
    by_cases h1 : a < b
    · rw [if_pos h1, Memory.read_cons]
    · rw [if_neg h1]
      by_cases h2 : a = b
      · subst h2
        rw [if_pos rfl, Memory.read_cons, Memory.read_cons]
        by_cases h : q = a
        · rw [if_pos h, if_pos h]
        · rw [if_neg h, if_neg h, if_neg h]
      · rw [if_neg h2, Memory.read_cons, Memory.read_cons, ih]
        by_cases h : q = b
        · rw [if_pos h, if_pos h, if_neg (by omega)]
        · rw [if_neg h, if_neg h]

theorem Memory.read_eraseCell (c : Config) (m : Memory) (a q : Nat) :
    Memory.read c (Memory.eraseCell a m) q = if q = a then background c a else Memory.read c m q := by
  induction m with
  | nil =>
    by_cases h : q = a
    · rw [if_pos h, h]; rfl
    · rw [if_neg h]; rfl
  | cons cell m ih =>
    obtain ⟨b, u⟩ := cell
    rw [Memory.eraseCell]
    by_cases h1 : a = b
    · rw [if_pos h1, ih, Memory.read_cons]
      by_cases h : q = a
      · rw [if_pos h, if_pos h]
      · rw [if_neg h, if_neg h, if_neg (by omega)]
    · rw [if_neg h1, Memory.read_cons, Memory.read_cons, ih]
      by_cases h : q = b
      · rw [if_pos h, if_pos h, if_neg (by omega)]
      · rw [if_neg h, if_neg h]

/-- A read after a write: the value written at its address, every other address as before. -/
theorem Memory.read_write (c : Config) (m : Memory) (a q : Nat) (v : Byte) :
    Memory.read c (Memory.write c m a v) q = if q = a then v else Memory.read c m q := by
  unfold Memory.write
  split_ifs with h1 h2 h2
  · simp [Memory.read_eraseCell, h2, h1]
  · simp [Memory.read_eraseCell, h2]
  · simp [Memory.read_insertCell, h2]
  · simp [Memory.read_insertCell, h2]

theorem Memory.mem_insertCell {m : Memory} {a : Nat} {v : Byte} {cell : Host.Cell}
    (h : cell ∈ Memory.insertCell a v m) : cell = (a, v) ∨ cell ∈ m := by
  induction m with
  | nil => simpa [Memory.insertCell] using h
  | cons d m ih =>
    obtain ⟨b, u⟩ := d
    unfold Memory.insertCell at h
    split_ifs at h with h1 h2 <;> simp only [List.mem_cons] at h ⊢
    · tauto
    · tauto
    · rcases h with h | h
      · tauto
      · rcases ih h with h | h <;> tauto

theorem Memory.mem_eraseCell {m : Memory} {a : Nat} {cell : Host.Cell}
    (h : cell ∈ Memory.eraseCell a m) : cell ∈ m := by
  induction m with
  | nil => simp [Memory.eraseCell] at h
  | cons d m ih =>
    obtain ⟨b, u⟩ := d
    unfold Memory.eraseCell at h
    split_ifs at h with h1
    · exact List.mem_cons_of_mem _ (ih h)
    · rcases List.mem_cons.mp h with h | h
      · simp [h]
      · exact List.mem_cons_of_mem _ (ih h)

theorem Memory.sorted_insertCell {m : Memory} (a : Nat) (v : Byte)
    (h : (m.map Prod.fst).Pairwise (· < ·)) :
    ((Memory.insertCell a v m).map Prod.fst).Pairwise (· < ·) := by
  induction m with
  | nil => simp [Memory.insertCell]
  | cons d m ih =>
    obtain ⟨b, u⟩ := d
    simp only [List.map_cons, List.pairwise_cons, List.mem_map] at h
    obtain ⟨hb, hm⟩ := h
    unfold Memory.insertCell
    split_ifs with h1 h2
    · simp only [List.map_cons, List.pairwise_cons, List.mem_cons, List.mem_map]
      refine ⟨?_, hb, hm⟩
      rintro k (rfl | hk)
      · exact h1
      · exact h1.trans (hb k hk)
    · subst h2
      simp only [List.map_cons, List.pairwise_cons, List.mem_map]
      exact ⟨hb, hm⟩
    · simp only [List.map_cons, List.pairwise_cons, List.mem_map]
      refine ⟨?_, ih hm⟩
      rintro k ⟨cell, hc, rfl⟩
      rcases Memory.mem_insertCell hc with rfl | hc
      · show b < a
        omega
      · exact hb _ ⟨cell, hc, rfl⟩

theorem Memory.sorted_eraseCell {m : Memory} (a : Nat)
    (h : (m.map Prod.fst).Pairwise (· < ·)) :
    ((Memory.eraseCell a m).map Prod.fst).Pairwise (· < ·) := by
  induction m with
  | nil => simp [Memory.eraseCell]
  | cons d m ih =>
    obtain ⟨b, u⟩ := d
    simp only [List.map_cons, List.pairwise_cons, List.mem_map] at h
    obtain ⟨hb, hm⟩ := h
    unfold Memory.eraseCell
    split_ifs with h1
    · exact ih hm
    · simp only [List.map_cons, List.pairwise_cons, List.mem_map]
      refine ⟨?_, ih hm⟩
      rintro k ⟨cell, hc, rfl⟩
      exact hb _ ⟨cell, Memory.mem_eraseCell hc, rfl⟩

/-- A store inside Memory keeps the canonical form. -/
theorem Memory.wf_write {c : Config} {m : Memory} {a : Nat} (v : Byte) (ha : a < 4096)
    (h : Memory.wf c m) : Memory.wf c (Memory.write c m a v) := by
  unfold Memory.write
  split_ifs with hv
  · exact ⟨Memory.sorted_eraseCell a h.1, fun cell hc => h.2 cell (Memory.mem_eraseCell hc)⟩
  · refine ⟨Memory.sorted_insertCell a v h.1, fun cell hc => ?_⟩
    rcases Memory.mem_insertCell hc with rfl | hc
    · exact ⟨ha, hv⟩
    · exact h.2 cell hc

theorem reset_memory_wf : Memory.wf State.reset.config State.reset.mem := by
  simp [Memory.wf, State.reset]

theorem Memory.wf_nil (c : Config) : Memory.wf c [] := by
  simp [Memory.wf]

/-! The same, of the state. -/

theorem State.poke_peek (s : State) (a q : Nat) (b : Byte) :
    (s.poke a b).peek q = if q = a then b else s.peek q :=
  Memory.read_write _ _ _ _ _

/-- `writeBytes` changes memory and nothing else. -/
theorem writeBytes_eq (a : Nat) (bs : List Byte) (s : State) :
    writeBytes a bs s = { s with mem := (writeBytes a bs s).mem } := by
  induction bs generalizing a s with
  | nil => rfl
  | cons b bs ih => rw [writeBytes, ih]; rfl

/-- What each address holds after `writeBytes`. -/
theorem writeBytes_peek (a : Nat) (bs : List Byte) (s : State) (q : Nat) :
    (writeBytes a bs s).peek q = if a ≤ q ∧ q < a + bs.length then bs.getD (q - a) 0 else s.peek q := by
  induction bs generalizing a s with
  | nil =>
    have : ¬ (a ≤ q ∧ q < a + ([] : List Byte).length) := by simp
    rw [if_neg this, writeBytes]
  | cons b bs ih =>
    rw [writeBytes, ih, State.poke_peek]
    by_cases hq : q = a
    · subst hq
      have h1 : ¬ (q + 1 ≤ q ∧ q < q + 1 + bs.length) := by omega
      have h2 : q ≤ q ∧ q < q + (b :: bs).length := by simp
      rw [if_neg h1, if_pos rfl, if_pos h2]
      simp
    · rw [if_neg hq]
      by_cases h1 : a + 1 ≤ q ∧ q < a + 1 + bs.length
      · have h2 : a ≤ q ∧ q < a + (b :: bs).length := by simp only [List.length_cons]; omega
        rw [if_pos h1, if_pos h2]
        obtain ⟨k, rfl⟩ : ∃ k, q = a + 1 + k := ⟨q - (a + 1), by omega⟩
        rw [show a + 1 + k - (a + 1) = k by omega, show a + 1 + k - a = k + 1 by omega]
        simp
      · have h2 : ¬ (a ≤ q ∧ q < a + (b :: bs).length) := by simp only [List.length_cons]; omega
        rw [if_neg h1, if_neg h2]

/-- Stores inside Memory keep the canonical form. -/
theorem writeBytes_wf (a : Nat) (bs : List Byte) (s : State) (ha : a + bs.length ≤ 4096)
    (h : Memory.wf s.config s.mem) : Memory.wf s.config (writeBytes a bs s).mem := by
  induction bs generalizing a s with
  | nil => exact h
  | cons b bs ih =>
    simp only [List.length_cons] at ha
    exact ih (a + 1) (s.poke a b) (by omega) (Memory.wf_write b (by omega) h)

@[simp] theorem readBytes_length (s : State) (a n : Nat) : (readBytes s a n).length = n := by
  induction n generalizing a with
  | zero => rfl
  | succ n ih => simp [readBytes, ih]

theorem readBytes_getD (s : State) (a n k : Nat) (h : k < n) :
    (readBytes s a n).getD k 0 = s.peek (a + k) := by
  induction n generalizing a k with
  | zero => omega
  | succ n ih =>
    cases k with
    | zero => simp [readBytes]
    | succ k =>
      rw [readBytes, List.getD_cons_succ, ih (a + 1) k (by omega), show a + 1 + k = a + (k + 1) by omega]

end Sys2Proof.Machine
end

