-- ==== Sys2Proof/Laws/Ops.lean ====
section
/-! SUPPORT. One lemma for each shared operation that says what it can do: registers, stack, addresses,
flags, exceptions. -/

namespace Sys2Proof.Machine

/-! Register blocks. -/

/-- `loadRegisters` changes the registers and nothing else. -/
theorem loadRegisters_eq (base n : Nat) (s : State) :
    loadRegisters base n s = { s with v := (loadRegisters base n s).v } := by
  induction n with
  | zero => rfl
  | succ n ih => rw [loadRegisters, ih]; rfl

/-- What each register holds after `loadRegisters`. -/
theorem loadRegisters_getV (base n : Nat) (s : State) (hn : n ≤ 16) (r : Nibble) :
    (loadRegisters base n s).getV r = if r.toNat < n then s.peek (base + r.toNat) else s.getV r := by
  induction n with
  | zero => simp [loadRegisters]
  | succ n ih =>
    rw [loadRegisters, State.setV_getV, ih (by omega)]
    have hnum : (BitVec.ofNat 4 n).toNat = n := by simp; omega
    by_cases h : r = BitVec.ofNat 4 n
    · subst h
      rw [if_pos rfl, hnum, if_pos (by omega)]
    · have hne : r.toNat ≠ n := fun e => h (BitVec.eq_of_toNat_eq (by rw [hnum, e]))
      rw [if_neg h]
      by_cases hlt : r.toNat < n
      · rw [if_pos hlt, if_pos (by omega)]
      · rw [if_neg hlt, if_neg (by omega)]

@[simp] theorem registersUpTo_length (s : State) (x : Nibble) :
    (registersUpTo s x).length = x.toNat + 1 := by
  have := x.isLt
  simp [registersUpTo]
  omega

theorem registersUpTo_getD (s : State) (x r : Nibble) (h : r.toNat ≤ x.toNat) :
    (registersUpTo s x).getD r.toNat 0 = s.getV r := by
  have hr : r.toNat < 16 := r.isLt
  have : r.toNat < x.toNat + 1 := by omega
  simp [registersUpTo, State.getV, List.getD_eq_getElem?_getD, this, hr]

/-! The call stack. -/

/-- A push below the capacity: one entry more, every older entry as before. -/
theorem push_spec (v : Word16) (s : State) (h : s.sp.val < 16) :
    push v s = some { s with stack := s.stack.set s.sp.val v h, sp := ⟨s.sp.val + 1, by omega⟩ } := by
  simp [push, h]

theorem push_full (v : Word16) (s : State) (h : s.sp.val = 16) : push v s = none := by
  simp [push, h]

/-- The depth after a pop. -/
def poppedDepth (s : State) : Fin 17 := ⟨s.sp.val - 1, Nat.lt_of_le_of_lt (Nat.sub_le _ _) s.sp.isLt⟩

/-- A pop of a nonempty stack answers the newest entry and lowers the depth. -/
theorem pop_spec (s : State) (h : 0 < s.sp.val) :
    pop s = some ({ s with sp := poppedDepth s }, s.stackEntry (s.sp.val - 1)) := by
  have h' := s.sp.isLt
  have hk : s.sp.val - 1 < 16 := by omega
  simp [pop, h, State.stackEntry, hk, poppedDepth]

theorem pop_empty (s : State) (h : s.sp.val = 0) : pop s = none := by
  simp [pop, h]

/-- The entries after a store into the stack array. -/
theorem stackEntry_set (s : State) (k : Nat) (hk : k < 16) (v : Word16) (p : Fin 17) (q : Nat) :
    State.stackEntry { s with stack := s.stack.set k v hk, sp := p } q =
      if q = k then v else s.stackEntry q := by
  unfold State.stackEntry
  by_cases h : q = k
  · subst h; simp [hk]
  · simp [h, Ne.symm h]

/-! Addresses. -/

/-- No fault: every byte of the span is inside Memory. -/
theorem spanFault_eq_none (s : State) (n : Nat) :
    spanFault s n = none ↔ n = 0 ∨ s.i.toNat + n ≤ 4096 := by
  unfold spanFault effAddr Config.memSize
  split_ifs with h
  · simp; omega
  · simp; omega

/-- A fault names the first address of the span outside Memory. -/
theorem spanFault_eq_some (s : State) (n a : Nat) :
    spanFault s n = some a ↔ 0 < n ∧ 4096 < s.i.toNat + n ∧ a = max s.i.toNat 4096 := by
  unfold spanFault effAddr Config.memSize
  split_ifs with h
  · simp only [Option.some.injEq]; omega
  · simp; omega

/-! Skips. -/

theorem skipIf_true (s : State) : skipIf true s = s.setPc (s.pc + 2) := rfl

theorem skipIf_false (s : State) : skipIf false s = s := rfl

/-- A skip changes `pc` and nothing else. -/
theorem skipIf_eq (c : Bool) (s : State) :
    skipIf c s = s.setPc (if c then s.pc + 2 else s.pc) := by
  cases c <;> rfl

/-! Flags. -/

theorem flagByte_toNat (f : Bool) : (flagByte f).toNat = if f then 1 else 0 := by cases f <;> rfl

theorem wrapSum_toNat (a b : Byte) : (wrapSum a b).toNat = (a.toNat + b.toNat) % 256 := by
  simp [wrapSum, exactSum]

theorem wrapDiff_toNat (a b : Byte) : (wrapDiff a b).toNat = (a.toNat + 256 - b.toNat) % 256 := by
  have ha := a.isLt
  have hb := b.isLt
  simp only [wrapDiff, BitVec.toNat_ofInt]
  omega

theorem halve_toNat (a : Byte) : (halve a).toNat = a.toNat / 2 := by
  have := a.isLt
  simp [halve]
  omega

theorem double_toNat (a : Byte) : (double a).toNat = a.toNat * 2 % 256 := by
  simp [double]

/-- What each register holds after a flag-writing instruction: the result in `V[x]`, the flag in VF unless
`x` is VF. -/
theorem writeFlagged_getV (x : Nibble) (f : Bool) (b : Byte) (s : State) (r : Nibble) :
    (writeFlagged x f b s).getV r =
      if r = x then b else if r = vF then flagByte f else s.getV r := by
  simp [writeFlagged, State.setV_getV]

/-- A flag-writing instruction changes the registers and nothing else. -/
theorem writeFlagged_eq (x : Nibble) (f : Bool) (b : Byte) (s : State) :
    writeFlagged x f b s = { s with v := (writeFlagged x f b s).v } := rfl

/-! Exceptions: what each field is after a fatal one. -/

@[simp] theorem fatal_run (k : FatalKind) (p o : Word16) (m : Option Nat) (s : State) :
    (fatal k p o m s).run = .halted (.fatal k) := rfl
@[simp] theorem fatal_err (k : FatalKind) (p o : Word16) (m : Option Nat) (s : State) :
    (fatal k p o m s).err = some ⟨k, p, o, m⟩ := rfl
@[simp] theorem fatal_outbox (k : FatalKind) (p o : Word16) (m : Option Nat) (s : State) :
    (fatal k p o m s).outbox = s.outbox ++ [.errorReport ⟨k, p, o, m⟩] := rfl

/-- A fatal exception writes `RUN`, `ERR` and the report, and nothing else. -/
theorem fatal_eq (k : FatalKind) (p o : Word16) (m : Option Nat) (s : State) :
    fatal k p o m s =
      { s with run := (fatal k p o m s).run, err := (fatal k p o m s).err,
               outbox := (fatal k p o m s).outbox } := rfl

/-- The recoverable exception changes at most the outbox. -/
theorem invalidInstruction_eq (p w : Word16) (s : State) :
    invalidInstruction p w s = { s with outbox := (invalidInstruction p w s).outbox } := by
  unfold invalidInstruction
  split <;> rfl

end Sys2Proof.Machine
end

