-- ==== Sys2Proof/Laws/Exec.lean ====
section
/-! SUPPORT. The instructions that branch, as one equation each, and what holds of every instruction. -/

namespace Sys2Proof.Machine

/-! Each branching meaning answers a next state: its effect under its condition, else the exception. -/

theorem execRet_eq (s : State) : execRet s = .next
    (if 0 < s.sp.val then { s with sp := poppedDepth s, pc := s.stackEntry (s.sp.val - 1) }
     else raiseFatal .stackUnderflow none s) := by
  unfold execRet
  split_ifs with h
  · rw [pop_spec s h]; rfl
  · rw [pop_empty s (by omega)]

theorem execCall_eq (nnn : Addr12) (s : State) : execCall nnn s = .next
    (if h : s.sp.val < 16 then
      { s with stack := s.stack.set s.sp.val s.pc h, sp := ⟨s.sp.val + 1, by omega⟩, pc := nnn.zext }
     else raiseFatal .stackOverflow none s) := by
  unfold execCall
  split_ifs with h
  · rw [push_spec _ _ h]; rfl
  · have := s.sp.isLt
    rw [push_full _ _ (by omega)]

theorem execLdB_eq (x : Nibble) (s : State) : execLdB x s = .next
    (if s.i.toNat + 3 ≤ 4096 then writeBytes s.i.toNat (decimalDigits (s.getV x)) s
     else raiseFatal .outOfBounds (some (max s.i.toNat 4096)) s) := by
  unfold execLdB
  split_ifs with h
  · rw [(spanFault_eq_none s 3).mpr (by omega)]; rfl
  · rw [(spanFault_eq_some s 3 _).mpr ⟨by omega, by omega, rfl⟩]

theorem execStRegs_eq (x : Nibble) (s : State) : execStRegs x s = .next
    (if s.i.toNat + (x.toNat + 1) ≤ 4096 then writeBytes s.i.toNat (registersUpTo s x) s
     else raiseFatal .outOfBounds (some (max s.i.toNat 4096)) s) := by
  unfold execStRegs
  split_ifs with h
  · rw [(spanFault_eq_none s _).mpr (by omega)]; rfl
  · rw [(spanFault_eq_some s _ _).mpr ⟨by omega, by omega, rfl⟩]

theorem execLdRegs_eq (x : Nibble) (s : State) : execLdRegs x s = .next
    (if s.i.toNat + (x.toNat + 1) ≤ 4096 then loadRegisters s.i.toNat (x.toNat + 1) s
     else raiseFatal .outOfBounds (some (max s.i.toNat 4096)) s) := by
  unfold execLdRegs
  split_ifs with h
  · rw [(spanFault_eq_none s _).mpr (by omega)]; rfl
  · rw [(spanFault_eq_some s _ _).mpr ⟨by omega, by omega, rfl⟩]

theorem execDrw_eq (x y n : Nibble) (s : State) : execDrw x y n s = .next
    (if n.toNat = 0 ∨ s.i.toNat + n.toNat ≤ 4096 then
      let drawn := drawAt s (s.getV x) (s.getV y) (readBytes s s.i.toNat n.toNat)
      (s.setV vF (flagByte drawn.2)).setFb drawn.1
     else raiseFatal .outOfBounds (some (max s.i.toNat 4096)) s) := by
  unfold execDrw
  split_ifs with h
  · rw [(spanFault_eq_none s _).mpr h]; rfl
  · rw [(spanFault_eq_some s _ _).mpr ⟨by omega, by omega, rfl⟩]

theorem execLdVxK_eq (x : Nibble) (s : State) : execLdVxK x s = .next
    (if heldCount s = 0 then s.setRun .waitKey else s.setV x (s.lastKey.setWidth 8)) := by
  unfold execLdVxK
  split_ifs <;> rfl

/-! Every instruction. -/

/-- Every instruction answers a next state: fatal exceptions are taken, none is refused. -/
theorem exec_answers (i : Instr) (s : State) : ∃ t, exec i s = .next t := by
  cases i with
  | ret => exact ⟨_, execRet_eq s⟩
  | call nnn => exact ⟨_, execCall_eq nnn s⟩
  | drw x y n => exact ⟨_, execDrw_eq x y n s⟩
  | ldB x => exact ⟨_, execLdB_eq x s⟩
  | stRegs x => exact ⟨_, execStRegs_eq x s⟩
  | ldRegs x => exact ⟨_, execLdRegs_eq x s⟩
  | ldVxK x => exact ⟨_, execLdVxK_eq x s⟩
  | _ => exact ⟨_, rfl⟩

/-- The two states agree on the parts that no instruction writes. -/
def SameFrame (s t : State) : Prop :=
  t.key = s.key ∧ t.lastKey = s.lastKey ∧ t.ir = s.ir ∧ t.cyc = s.cyc ∧ t.stopReq = s.stopReq ∧
    t.config = s.config ∧ t.schedule = s.schedule

theorem SameFrame.same (s : State) : SameFrame s s := ⟨rfl, rfl, rfl, rfl, rfl, rfl, rfl⟩

/-- No instruction writes the instruction register, the cycle counter, the host's inputs, the constants
of the run or the schedule. -/
theorem exec_sameFrame {i : Instr} {s t : State} (h : exec i s = .next t) : SameFrame s t := by
  cases i with
  | ret =>
    cases (execRet_eq s).symm.trans h
    split_ifs <;> exact .same s
  | call nnn =>
    cases (execCall_eq nnn s).symm.trans h
    split_ifs <;> exact .same s
  | drw x y n =>
    cases (execDrw_eq x y n s).symm.trans h
    split_ifs <;> exact .same s
  | ldB x =>
    cases (execLdB_eq x s).symm.trans h
    split_ifs
    · rw [writeBytes_eq]; exact .same s
    · exact .same s
  | stRegs x =>
    cases (execStRegs_eq x s).symm.trans h
    split_ifs
    · rw [writeBytes_eq]; exact .same s
    · exact .same s
  | ldRegs x =>
    cases (execLdRegs_eq x s).symm.trans h
    split_ifs
    · rw [loadRegisters_eq]; exact .same s
    · exact .same s
  | ldVxK x =>
    cases (execLdVxK_eq x s).symm.trans h
    split_ifs <;> exact .same s
  | seImm x kk => cases h; rw [skipIf_eq]; exact .same s
  | sneImm x kk => cases h; rw [skipIf_eq]; exact .same s
  | seReg x y => cases h; rw [skipIf_eq]; exact .same s
  | sneReg x y => cases h; rw [skipIf_eq]; exact .same s
  | skp x => cases h; rw [skipIf_eq]; exact .same s
  | sknp x => cases h; rw [skipIf_eq]; exact .same s
  | _ => cases h; exact .same s

end Sys2Proof.Machine
end

