-- ==== Sys2Proof/Laws/Cycle.lean ====
section
/-! SUPPORT. What stands around an instruction: fetch, completion, and what a step can do. -/

namespace Sys2Proof.Machine

open Sys2Proof.Safety

/-! Fetch. -/

/-- A fetch whose two bytes are inside Memory answers their word. -/
theorem fetch_inside (s : State) (h : s.pc.toNat + 1 < 4096) :
    fetch s = .ok (s.peek s.pc.toNat ++ s.peek (s.pc.toNat + 1)) := by
  have h0 : s.pc.toNat < 4096 := by omega
  simp [fetch, memRead, h, h0, assembleWord, wordOrder]

/-- Any other fetch faults on the first byte outside Memory. -/
theorem fetch_outside (s : State) (h : ¬ s.pc.toNat + 1 < 4096) :
    fetch s = .error (max s.pc.toNat 4096) := by
  by_cases h0 : s.pc.toNat < 4096
  · have h2 : s.pc.toNat + 1 = max s.pc.toNat 4096 := by omega
    simp [fetch, memRead, h0, h2]
  · have h2 : s.pc.toNat = max s.pc.toNat 4096 := by omega
    simp only [fetch, memRead, Config.memSize, if_neg h0]
    rw [← h2]

/-! The end of a cycle. -/

/-- Before the tenth cycle only the counter moves. -/
theorem completeCycle_count (s : State) (h : s.cyc.val < 9) :
    completeCycle s = { s with cyc := ⟨s.cyc.val + 1, by omega⟩ } := by
  have : ¬ s.cyc.val + 1 = Config.cyclesPerTick := by simp only [Config.cyclesPerTick]; omega
  rw [completeCycle, dif_neg this]

/-- The tenth cycle ends the tick. -/
theorem completeCycle_tick (s : State) (h : s.cyc.val = 9) :
    completeCycle s = paintCheck { s with cyc := 0, dt := countDown s.dt, st := countDown s.st } := by
  have : s.cyc.val + 1 = Config.cyclesPerTick := by simp only [Config.cyclesPerTick]; omega
  rw [completeCycle, dif_pos this]
  rfl

/-- The paint check writes the dirty flag and the outbox, and nothing else. -/
theorem paintCheck_eq (s : State) :
    paintCheck s = { s with dirty := (paintCheck s).dirty, outbox := (paintCheck s).outbox } := by
  unfold paintCheck
  split <;> rfl

/-- The completion of a cycle writes the counter, the timers, the dirty flag and the outbox, and nothing
else. -/
theorem completeCycle_eq (s : State) :
    completeCycle s =
      { s with cyc := (completeCycle s).cyc, dt := (completeCycle s).dt, st := (completeCycle s).st,
               dirty := (completeCycle s).dirty, outbox := (completeCycle s).outbox } := by
  have hlt := s.cyc.isLt
  by_cases h : s.cyc.val < 9
  · rw [completeCycle_count s h]
  · rw [completeCycle_tick s (by omega), paintCheck_eq]

@[simp] theorem completeCycle_run (s : State) : (completeCycle s).run = s.run := by rw [completeCycle_eq]
@[simp] theorem completeCycle_pc (s : State) : (completeCycle s).pc = s.pc := by rw [completeCycle_eq]
@[simp] theorem completeCycle_ir (s : State) : (completeCycle s).ir = s.ir := by rw [completeCycle_eq]
@[simp] theorem completeCycle_mem (s : State) : (completeCycle s).mem = s.mem := by rw [completeCycle_eq]
@[simp] theorem completeCycle_config (s : State) : (completeCycle s).config = s.config := by
  rw [completeCycle_eq]
@[simp] theorem completeCycle_err (s : State) : (completeCycle s).err = s.err := by rw [completeCycle_eq]
@[simp] theorem completeCycle_sp (s : State) : (completeCycle s).sp = s.sp := by rw [completeCycle_eq]
@[simp] theorem completeCycle_stack (s : State) : (completeCycle s).stack = s.stack := by
  rw [completeCycle_eq]
@[simp] theorem completeCycle_v (s : State) : (completeCycle s).v = s.v := by rw [completeCycle_eq]
@[simp] theorem completeCycle_i (s : State) : (completeCycle s).i = s.i := by rw [completeCycle_eq]
@[simp] theorem completeCycle_fb (s : State) : (completeCycle s).fb = s.fb := by rw [completeCycle_eq]
@[simp] theorem completeCycle_key (s : State) : (completeCycle s).key = s.key := by rw [completeCycle_eq]
@[simp] theorem completeCycle_lastKey (s : State) : (completeCycle s).lastKey = s.lastKey := by
  rw [completeCycle_eq]
@[simp] theorem completeCycle_stopReq (s : State) : (completeCycle s).stopReq = s.stopReq := by
  rw [completeCycle_eq]
@[simp] theorem completeCycle_draws (s : State) : (completeCycle s).draws = s.draws := by
  rw [completeCycle_eq]
@[simp] theorem completeCycle_schedule (s : State) : (completeCycle s).schedule = s.schedule := by
  rw [completeCycle_eq]

/-! What a step can do. -/

/-- The next state of an instruction, its cycle completed unless the core stopped running. -/
def afterInstr (t : State) : State := if t.run = .running then completeCycle t else t

theorem finishCycle_next {o : Host.Outcome State Fault Refusal} {t : State}
    (h : finishCycle o = .next t) : ∃ u, o = .next u ∧ t = afterInstr u := by
  cases o with
  | next u => exact ⟨u, rfl, by simpa [finishCycle, afterInstr] using h.symm⟩
  | fault f => simp [finishCycle] at h
  | refused r => simp [finishCycle] at h

/-- Everything a cycle can do. -/
theorem cycle_cases {s t : State} (h : cycle s = .next t) :
    (s.stopReq = true ∧ t = s.setRun (.halted .stopped)) ∨
    (s.stopReq = false ∧ 4096 ≤ s.pc.toNat + 1 ∧ t = fetchFault (max s.pc.toNat 4096) s) ∨
    (s.stopReq = false ∧ s.pc.toNat + 1 < 4096 ∧
      ∃ w, w = (s.peek s.pc.toNat ++ s.peek (s.pc.toNat + 1) : Word16) ∧
      ((∃ e, decode w = .error e ∧
          t = completeCycle (invalidInstruction (s.pc + 2 - 2) w (latch w s))) ∨
       (∃ i u, decode w = .ok i ∧ exec i (latch w s) = .next u ∧ t = afterInstr u))) := by
  unfold cycle at h
  cases hstop : s.stopReq with
  | true => left; exact ⟨rfl, by simpa [hstop] using h.symm⟩
  | false =>
    right
    simp only [hstop, Bool.false_eq_true, if_false] at h
    by_cases hpc : s.pc.toNat + 1 < 4096
    · right
      rw [fetch_inside s hpc] at h
      refine ⟨rfl, hpc, _, rfl, ?_⟩
      simp only [runWord] at h
      cases hd : decode (s.peek s.pc.toNat ++ s.peek (s.pc.toNat + 1) : Word16) with
      | error e =>
        rw [hd] at h
        exact .inl ⟨e, rfl, by simpa [latch] using h.symm⟩
      | ok i =>
        rw [hd] at h
        obtain ⟨u, hu, rfl⟩ := finishCycle_next h
        exact .inr ⟨i, u, rfl, hu, rfl⟩
    · left
      rw [fetch_outside s hpc] at h
      exact ⟨rfl, by omega, by simpa using h.symm⟩

/-- Everything a core in `WaitKey` can do. -/
theorem waitStep_cases {s t : State} (h : waitStep s = .next t) :
    (s.stopReq = true ∧ t = s.setRun (.halted .stopped)) ∨
    (s.stopReq = false ∧ heldCount s = 0 ∧ t = s) ∨
    (s.stopReq = false ∧ heldCount s ≠ 0 ∧
      t = completeCycle ((s.setV (fieldX s.ir) (s.lastKey.setWidth 8)).setRun .running)) := by
  unfold waitStep at h
  cases hstop : s.stopReq with
  | true => left; exact ⟨rfl, by simpa [hstop] using h.symm⟩
  | false =>
    right
    simp only [hstop, Bool.false_eq_true, if_false] at h
    by_cases hk : heldCount s = 0
    · left; exact ⟨rfl, hk, by simpa [hk] using h.symm⟩
    · right; exact ⟨rfl, hk, by simpa [hk] using h.symm⟩

/-- Everything the core can do: a cycle, a wait step, or nothing once it is halted. -/
theorem coreStep_cases {s t : State} (h : coreStep s = .next t) :
    (s.run = .running ∧ cycle s = .next t) ∨ (s.run = .waitKey ∧ waitStep s = .next t) := by
  unfold coreStep at h
  cases hr : s.run with
  | running => left; exact ⟨rfl, by simpa [hr] using h⟩
  | waitKey => right; exact ⟨rfl, by simpa [hr] using h⟩
  | halted c => simp [hr] at h

/-- Whose step it is: the core's, or the host's. -/
theorem step_cases {s t : State} (h : step s = .next t) :
    (∃ s', CoreDue s s' ∧ coreStep s' = .next t) ∨
    (∃ e rest, s.schedule = .host e :: rest ∧ envStep e { s with schedule := rest } = .next t) := by
  unfold step takeTurn at h
  split at h
  · rename_i hs; exact .inl ⟨s, .inl ⟨hs, rfl⟩, h⟩
  · rename_i rest hs; exact .inl ⟨_, .inr ⟨rest, hs, rfl⟩, h⟩
  · rename_i e rest hs; exact .inr ⟨e, rest, hs, h⟩

/-- When the core is due, the step is the core's. -/
theorem step_of_coreDue {s s' : State} (h : CoreDue s s') : step s = coreStep s' := by
  rcases h with ⟨hs, rfl⟩ | ⟨rest, hs, rfl⟩ <;> simp [step, takeTurn, hs]

/-- When a host step is due, the step is the host's. -/
theorem step_of_hostDue {s : State} {e : EnvStep} {rest : List Turn} (h : s.schedule = .host e :: rest) :
    step s = envStep e { s with schedule := rest } := by
  simp [step, takeTurn, h]

/-- Everything a host step can do. -/
theorem envStep_cases {e : EnvStep} {s t : State} (h : envStep e s = .next t) :
    (∃ k, e = .keyDown k ∧ t = keyDown k s) ∨ (∃ k, e = .keyUp k ∧ t = keyUp k s) ∨
    (e = .stopReq ∧ t = requestStop s) ∨
    (∃ rom, e = .reset rom ∧ rom.length ≤ 3584 ∧ t = resetWith rom s) ∨
    (e = .takeEvent ∧ t = { s with outbox := s.outbox.tail }) := by
  cases e with
  | keyDown k => left; exact ⟨k, rfl, by simpa [envStep] using h.symm⟩
  | keyUp k => right; left; exact ⟨k, rfl, by simpa [envStep] using h.symm⟩
  | stopReq => right; right; left; exact ⟨rfl, by simpa [envStep] using h.symm⟩
  | reset rom =>
    right; right; right; left
    simp only [envStep] at h
    split_ifs at h with hl
    exact ⟨rom, rfl, hl, by simpa using h.symm⟩
  | takeEvent => right; right; right; right; exact ⟨rfl, by simpa [envStep] using h.symm⟩

end Sys2Proof.Machine
end

