-- ==== Sys2Proof/Laws/Decode.lean ====
section
/-! SUPPORT. The fields of the words that the encoder's layouts build, and the bytes of a word. -/

namespace Sys2Proof

theorem append_inj_high {a b : Nat} (h : BitVec a) (l : BitVec b) :
    (h ++ l).extractLsb' b a = h := by
  apply BitVec.eq_of_getLsbD_eq
  intro i hi
  simp [BitVec.getLsbD_append, hi]

theorem append_inj_low {a b : Nat} (h : BitVec a) (l : BitVec b) :
    (h ++ l).extractLsb' 0 b = l := by
  apply BitVec.eq_of_getLsbD_eq
  intro i hi
  simp [BitVec.getLsbD_append, hi]

/-- A field of the low part of a word built of two parts. -/
theorem extract_append_low {a b : Nat} (h : BitVec a) (l : BitVec b) (k n : Nat) (hk : k + n ≤ b) :
    (h ++ l).extractLsb' k n = l.extractLsb' k n := by
  apply BitVec.eq_of_getLsbD_eq
  intro i hi
  have : k + i < b := by omega
  simp [BitVec.getLsbD_append, this]

theorem extract_zero_full {n : Nat} (x : BitVec n) : x.extractLsb' 0 n = x := by
  simp

/-! Layout `XYN`. -/

@[simp] theorem fieldFamily_layoutXYN (f x y n : Nibble) : fieldFamily (layoutXYN f x y n) = f :=
  append_inj_high f (x ++ (y ++ n))

@[simp] theorem fieldX_layoutXYN (f x y n : Nibble) : fieldX (layoutXYN f x y n) = x :=
  (extract_append_low f (x ++ (y ++ n)) 8 4 (by decide)).trans (append_inj_high x (y ++ n))

@[simp] theorem fieldY_layoutXYN (f x y n : Nibble) : fieldY (layoutXYN f x y n) = y :=
  (extract_append_low f (x ++ (y ++ n)) 4 4 (by decide)).trans
    ((extract_append_low x (y ++ n) 4 4 (by decide)).trans (append_inj_high y n))

@[simp] theorem fieldN_layoutXYN (f x y n : Nibble) : fieldN (layoutXYN f x y n) = n :=
  (extract_append_low f (x ++ (y ++ n)) 0 4 (by decide)).trans
    ((extract_append_low x (y ++ n) 0 4 (by decide)).trans (append_inj_low y n))

/-! Layout `XKK`. -/

@[simp] theorem fieldFamily_layoutXKK (f x : Nibble) (kk : Byte) : fieldFamily (layoutXKK f x kk) = f :=
  append_inj_high f (x ++ kk)

@[simp] theorem fieldX_layoutXKK (f x : Nibble) (kk : Byte) : fieldX (layoutXKK f x kk) = x :=
  (extract_append_low f (x ++ kk) 8 4 (by decide)).trans (append_inj_high x kk)

@[simp] theorem fieldKK_layoutXKK (f x : Nibble) (kk : Byte) : fieldKK (layoutXKK f x kk) = kk :=
  (extract_append_low f (x ++ kk) 0 8 (by decide)).trans (append_inj_low x kk)

/-! Layout `NNN`. -/

@[simp] theorem fieldFamily_layoutNNN (f : Nibble) (nnn : Addr12) : fieldFamily (layoutNNN f nnn) = f :=
  append_inj_high f nnn

@[simp] theorem fieldNNN_layoutNNN (f : Nibble) (nnn : Addr12) : fieldNNN (layoutNNN f nnn) = nnn :=
  append_inj_low f nnn

/-! The bytes of a word. -/

@[simp] theorem assembleWord_eq (first second : Byte) : assembleWord first second = first ++ second := rfl

/-- Splitting a word into its bytes and assembling them gives the word. -/
theorem assembleWord_wordBytes (w : Word16) : assembleWord (wordBytes w).1 (wordBytes w).2 = w := by
  apply BitVec.eq_of_getLsbD_eq
  intro i hi
  simp only [wordBytes, wordOrder, assembleWord, BitVec.getLsbD_append, BitVec.getLsbD_extractLsb']
  by_cases h : i < 8
  · simp [h]
  · have : i - 8 < 8 := by omega
    have h8 : 8 + (i - 8) = i := by omega
    simp [h, this, h8]

/-- Assembling two bytes and splitting the word gives the bytes. -/
theorem wordBytes_assembleWord (a b : Byte) : wordBytes (assembleWord a b) = (a, b) := by
  simp only [wordBytes, assembleWord, wordOrder]
  rw [append_inj_low a b, append_inj_high a b]

/-- What the decoder reads from the bytes of a word. -/
theorem decodeBytes_wordBytes (w : Word16) (rest : List Byte) :
    decodeBytes ((wordBytes w).1 :: (wordBytes w).2 :: rest) = (decode w).map (fun i => (i, rest)) := by
  rw [decodeBytes, assembleWord_wordBytes]

end Sys2Proof
end

