-- ==== Sys2Proof/Laws/Frame.lean ====
section
/-! SUPPORT. The frame of each shared operation: which parts of the state it can change. -/

namespace Sys2Proof.Safety

open Sys2Proof.Machine

/-- A frame may be enlarged. -/
theorem UnchangedBut.mono {touched more : StatePart → Prop} {s t : State} (h : UnchangedBut touched s t)
    (hm : ∀ p, touched p → more p) : UnchangedBut more s t :=
  fun p hp => h p (fun ht => hp (hm p ht))

/-- Frames compose. -/
theorem UnchangedBut.trans {touched : StatePart → Prop} {s t u : State} (h : UnchangedBut touched s t)
    (h' : UnchangedBut touched t u) : UnchangedBut touched s u := by
  intro p hp
  have h1 := h p hp
  have h2 := h' p hp
  cases p <;> exact Eq.trans h2 h1

end Sys2Proof.Safety

namespace Sys2Proof.Machine

open Sys2Proof.Safety

/-- Frames are reflexive. -/
theorem unchangedBut_same (touched : StatePart → Prop) (s : State) : UnchangedBut touched s s := by
  intro p _; cases p <;> rfl

theorem unchanged_setV (s : State) (x : Nibble) (b : Byte) : UnchangedBut (· = .v x) s (s.setV x b) := by
  intro p hp
  cases p with
  | v r => exact State.setV_getV_other s x r b (fun e => hp (by rw [e]))
  | _ => rfl

theorem unchanged_setI (s : State) (w : Word16) : UnchangedBut (· = .i) s (s.setI w) := by
  intro p hp
  cases p with
  | i => exact absurd rfl hp
  | _ => rfl

theorem unchanged_setPc (s : State) (w : Word16) : UnchangedBut (· = .pc) s (s.setPc w) := by
  intro p hp
  cases p with
  | pc => exact absurd rfl hp
  | _ => rfl

theorem unchanged_setDt (s : State) (b : Byte) : UnchangedBut (· = .dt) s (s.setDt b) := by
  intro p hp
  cases p with
  | dt => exact absurd rfl hp
  | _ => rfl

theorem unchanged_setSt (s : State) (b : Byte) : UnchangedBut (· = .st) s (s.setSt b) := by
  intro p hp
  cases p with
  | st => exact absurd rfl hp
  | _ => rfl

theorem unchanged_setRun (s : State) (r : RunState) : UnchangedBut (· = .run) s (s.setRun r) := by
  intro p hp
  cases p with
  | run => exact absurd rfl hp
  | _ => rfl

theorem unchanged_drawn (s : State) : UnchangedBut (· = .draws) s s.drawn := by
  intro p hp
  cases p with
  | draws => exact absurd rfl hp
  | _ => rfl

theorem unchanged_setFb (s : State) (g : Framebuffer) :
    UnchangedBut (fun p => p = .dirty ∨ ∃ px py, p = .pixel px py) s (s.setFb g) := by
  intro p hp
  cases p with
  | pixel x y => exact absurd (.inr ⟨x, y, rfl⟩) hp
  | dirty => exact absurd (.inl rfl) hp
  | _ => rfl

theorem unchanged_skipIf (c : Bool) (s : State) : UnchangedBut (· = .pc) s (skipIf c s) := by
  rw [skipIf_eq]
  exact unchanged_setPc s _

theorem unchanged_writeFlagged (x : Nibble) (f : Bool) (b : Byte) (s : State) :
    UnchangedBut (fun p => p = .v x ∨ p = .v vF) s (writeFlagged x f b s) :=
  ((unchanged_setV s vF _).mono fun _ h => .inr h).trans ((unchanged_setV _ x b).mono fun _ h => .inl h)

/-- The parts that a block of stores can change are its addresses. -/
theorem unchanged_writeBytes (a : Nat) (bs : List Byte) (s : State) :
    UnchangedBut (fun p => ∃ k, k < bs.length ∧ p = .mem (a + k)) s (writeBytes a bs s) := by
  intro p hp
  cases p with
  | mem q =>
    show (writeBytes a bs s).peek q = s.peek q
    rw [writeBytes_peek, if_neg]
    rintro ⟨h1, h2⟩
    exact hp ⟨q - a, by omega, by congr 1; omega⟩
  | _ => rw [writeBytes_eq]; rfl

/-- The parts that a block load can change are its registers. -/
theorem unchanged_loadRegisters (base n : Nat) (s : State) (hn : n ≤ 16) :
    UnchangedBut (fun p => ∃ r : Nibble, r.toNat < n ∧ p = .v r) s (loadRegisters base n s) := by
  intro p hp
  cases p with
  | v r =>
    show (loadRegisters base n s).getV r = s.getV r
    rw [loadRegisters_getV base n s hn, if_neg]
    exact fun h => hp ⟨r, h, rfl⟩
  | _ => rw [loadRegisters_eq]; rfl

theorem unchanged_fatal (k : FatalKind) (p o : Word16) (m : Option Nat) (s : State) :
    UnchangedBut fatalParts s (fatal k p o m s) := by
  intro q hq
  cases q with
  | run => exact absurd (.inl rfl) hq
  | err => exact absurd (.inr (.inl rfl)) hq
  | outbox => exact absurd (.inr (.inr rfl)) hq
  | _ => rfl

/-- An instruction that answers `raiseFatal` takes that exception. -/
theorem takesFatal_of_eq {i : Instr} {s : State} {k : FatalKind} {m : Option Nat}
    (h : exec i s = .next (raiseFatal k m s)) : TakesFatal i s k m :=
  ⟨_, h, rfl, rfl, rfl, unchanged_fatal _ _ _ _ _⟩

theorem unchanged_completeCycle (s : State) :
    UnchangedBut (fun p => p = .cyc ∨ p = .dt ∨ p = .st ∨ p = .dirty ∨ p = .outbox) s (completeCycle s) := by
  intro p hp
  cases p with
  | cyc => exact absurd (.inl rfl) hp
  | dt => exact absurd (.inr (.inl rfl)) hp
  | st => exact absurd (.inr (.inr (.inl rfl))) hp
  | dirty => exact absurd (.inr (.inr (.inr (.inl rfl)))) hp
  | outbox => exact absurd (.inr (.inr (.inr (.inr rfl)))) hp
  | _ => rw [completeCycle_eq]; rfl

end Sys2Proof.Machine
end

