-- ==== Sys2Proof/Laws/PerInstr.lean ====
section
/-! SUPPORT. Statements made once per instruction (LAWS.json, "per_instruction"). -/

namespace Sys2Proof

theorem nibble_and_ones (z : Nibble) : z &&& 0xF#4 = z := by revert z; decide

theorem byte_and_ones (z : Byte) : z &&& 0xFF#8 = z := by revert z; decide

/-- A mask of two parts acts on a word of two parts by parts. -/
theorem and_parts {a b : Nat} (h h' : BitVec a) (l l' : BitVec b) :
    (h ++ l) &&& (h' ++ l') = (h &&& h') ++ (l &&& l') :=
  BitVec.and_append

theorem mask_high_nibble (f : Nibble) (low : BitVec 12) :
    ((f ++ low : Word16) &&& 0xF000#16) = f ++ 0#12 := by
  refine (and_parts f 0xF#4 low 0#12).trans ?_
  rw [nibble_and_ones, BitVec.and_zero]

theorem mask_family_and_n (f x y n : Nibble) :
    (layoutXYN f x y n &&& 0xF00F#16) = layoutXYN f 0 0 n := by
  refine (and_parts f 0xF#4 (x ++ (y ++ n)) (0#4 ++ (0#4 ++ 0xF#4))).trans ?_
  rw [and_parts, and_parts, nibble_and_ones, nibble_and_ones, BitVec.and_zero, BitVec.and_zero]
  rfl

theorem mask_family_and_kk (f x : Nibble) (kk : Byte) :
    (layoutXKK f x kk &&& 0xF0FF#16) = layoutXKK f 0 kk := by
  refine (and_parts f 0xF#4 (x ++ kk) (0#4 ++ 0xFF#8)).trans ?_
  rw [and_parts, nibble_and_ones, byte_and_ones, BitVec.and_zero]
  rfl

end Sys2Proof

namespace Sys2Proof.Laws.TableRow

/-- The word that the encoder gives an instruction carries the bits that the instruction's own row of the
opcode map fixes (30_encoding.md R105). -/
def Statement (i : Instr) : Prop :=
  ∃ row ∈ opcodeMap, row.mnemonic = mnemonic i ∧ row.selects (encode i) = true

theorem cls : Statement .cls :=
  ⟨⟨"CLS", 0xFFFF, 0x00E0⟩, by decide, rfl, by decide⟩

theorem ret : Statement .ret :=
  ⟨⟨"RET", 0xFFFF, 0x00EE⟩, by decide, rfl, by decide⟩

theorem sys (nnn : Addr12) : Statement (.sys nnn) :=
  ⟨⟨"SYS", 0xF000, 0x0000⟩, by decide, rfl, beq_iff_eq.mpr (mask_high_nibble 0x0 nnn)⟩

theorem jp (nnn : Addr12) : Statement (.jp nnn) :=
  ⟨⟨"JP", 0xF000, 0x1000⟩, by decide, rfl, beq_iff_eq.mpr (mask_high_nibble 0x1 nnn)⟩

theorem call (nnn : Addr12) : Statement (.call nnn) :=
  ⟨⟨"CALL", 0xF000, 0x2000⟩, by decide, rfl, beq_iff_eq.mpr (mask_high_nibble 0x2 nnn)⟩

theorem seImm (x : Nibble) (kk : Byte) : Statement (.seImm x kk) :=
  ⟨⟨"SE_IMM", 0xF000, 0x3000⟩, by decide, rfl, beq_iff_eq.mpr (mask_high_nibble 0x3 (x ++ kk))⟩

theorem sneImm (x : Nibble) (kk : Byte) : Statement (.sneImm x kk) :=
  ⟨⟨"SNE_IMM", 0xF000, 0x4000⟩, by decide, rfl, beq_iff_eq.mpr (mask_high_nibble 0x4 (x ++ kk))⟩

theorem seReg (x y : Nibble) : Statement (.seReg x y) :=
  ⟨⟨"SE_REG", 0xF00F, 0x5000⟩, by decide, rfl, beq_iff_eq.mpr (mask_family_and_n 0x5 x y 0x0)⟩

theorem ldImm (x : Nibble) (kk : Byte) : Statement (.ldImm x kk) :=
  ⟨⟨"LD_IMM", 0xF000, 0x6000⟩, by decide, rfl, beq_iff_eq.mpr (mask_high_nibble 0x6 (x ++ kk))⟩

theorem addImm (x : Nibble) (kk : Byte) : Statement (.addImm x kk) :=
  ⟨⟨"ADD_IMM", 0xF000, 0x7000⟩, by decide, rfl, beq_iff_eq.mpr (mask_high_nibble 0x7 (x ++ kk))⟩

theorem ldReg (x y : Nibble) : Statement (.ldReg x y) :=
  ⟨⟨"LD_REG", 0xF00F, 0x8000⟩, by decide, rfl, beq_iff_eq.mpr (mask_family_and_n 0x8 x y 0x0)⟩

theorem orReg (x y : Nibble) : Statement (.orReg x y) :=
  ⟨⟨"OR", 0xF00F, 0x8001⟩, by decide, rfl, beq_iff_eq.mpr (mask_family_and_n 0x8 x y 0x1)⟩

theorem andReg (x y : Nibble) : Statement (.andReg x y) :=
  ⟨⟨"AND", 0xF00F, 0x8002⟩, by decide, rfl, beq_iff_eq.mpr (mask_family_and_n 0x8 x y 0x2)⟩

theorem xorReg (x y : Nibble) : Statement (.xorReg x y) :=
  ⟨⟨"XOR", 0xF00F, 0x8003⟩, by decide, rfl, beq_iff_eq.mpr (mask_family_and_n 0x8 x y 0x3)⟩

theorem addReg (x y : Nibble) : Statement (.addReg x y) :=
  ⟨⟨"ADD_REG", 0xF00F, 0x8004⟩, by decide, rfl, beq_iff_eq.mpr (mask_family_and_n 0x8 x y 0x4)⟩

theorem sub (x y : Nibble) : Statement (.sub x y) :=
  ⟨⟨"SUB", 0xF00F, 0x8005⟩, by decide, rfl, beq_iff_eq.mpr (mask_family_and_n 0x8 x y 0x5)⟩

theorem shr (x y : Nibble) : Statement (.shr x y) :=
  ⟨⟨"SHR", 0xF00F, 0x8006⟩, by decide, rfl, beq_iff_eq.mpr (mask_family_and_n 0x8 x y 0x6)⟩

theorem subn (x y : Nibble) : Statement (.subn x y) :=
  ⟨⟨"SUBN", 0xF00F, 0x8007⟩, by decide, rfl, beq_iff_eq.mpr (mask_family_and_n 0x8 x y 0x7)⟩

theorem shl (x y : Nibble) : Statement (.shl x y) :=
  ⟨⟨"SHL", 0xF00F, 0x800E⟩, by decide, rfl, beq_iff_eq.mpr (mask_family_and_n 0x8 x y 0xE)⟩

theorem sneReg (x y : Nibble) : Statement (.sneReg x y) :=
  ⟨⟨"SNE_REG", 0xF00F, 0x9000⟩, by decide, rfl, beq_iff_eq.mpr (mask_family_and_n 0x9 x y 0x0)⟩

theorem ldI (nnn : Addr12) : Statement (.ldI nnn) :=
  ⟨⟨"LD_I", 0xF000, 0xA000⟩, by decide, rfl, beq_iff_eq.mpr (mask_high_nibble 0xA nnn)⟩

theorem jpV0 (nnn : Addr12) : Statement (.jpV0 nnn) :=
  ⟨⟨"JP_V0", 0xF000, 0xB000⟩, by decide, rfl, beq_iff_eq.mpr (mask_high_nibble 0xB nnn)⟩

theorem rnd (x : Nibble) (kk : Byte) : Statement (.rnd x kk) :=
  ⟨⟨"RND", 0xF000, 0xC000⟩, by decide, rfl, beq_iff_eq.mpr (mask_high_nibble 0xC (x ++ kk))⟩

theorem drw (x y n : Nibble) : Statement (.drw x y n) :=
  ⟨⟨"DRW", 0xF000, 0xD000⟩, by decide, rfl, beq_iff_eq.mpr (mask_high_nibble 0xD (x ++ (y ++ n)))⟩

theorem skp (x : Nibble) : Statement (.skp x) :=
  ⟨⟨"SKP", 0xF0FF, 0xE09E⟩, by decide, rfl, beq_iff_eq.mpr (mask_family_and_kk 0xE x 0x9E)⟩

theorem sknp (x : Nibble) : Statement (.sknp x) :=
  ⟨⟨"SKNP", 0xF0FF, 0xE0A1⟩, by decide, rfl, beq_iff_eq.mpr (mask_family_and_kk 0xE x 0xA1)⟩

theorem ldVxDt (x : Nibble) : Statement (.ldVxDt x) :=
  ⟨⟨"LD_VX_DT", 0xF0FF, 0xF007⟩, by decide, rfl, beq_iff_eq.mpr (mask_family_and_kk 0xF x 0x07)⟩

theorem ldVxK (x : Nibble) : Statement (.ldVxK x) :=
  ⟨⟨"LD_VX_K", 0xF0FF, 0xF00A⟩, by decide, rfl, beq_iff_eq.mpr (mask_family_and_kk 0xF x 0x0A)⟩

theorem ldDtVx (x : Nibble) : Statement (.ldDtVx x) :=
  ⟨⟨"LD_DT_VX", 0xF0FF, 0xF015⟩, by decide, rfl, beq_iff_eq.mpr (mask_family_and_kk 0xF x 0x15)⟩

theorem ldStVx (x : Nibble) : Statement (.ldStVx x) :=
  ⟨⟨"LD_ST_VX", 0xF0FF, 0xF018⟩, by decide, rfl, beq_iff_eq.mpr (mask_family_and_kk 0xF x 0x18)⟩

theorem addI (x : Nibble) : Statement (.addI x) :=
  ⟨⟨"ADD_I", 0xF0FF, 0xF01E⟩, by decide, rfl, beq_iff_eq.mpr (mask_family_and_kk 0xF x 0x1E)⟩

theorem ldF (x : Nibble) : Statement (.ldF x) :=
  ⟨⟨"LD_F", 0xF0FF, 0xF029⟩, by decide, rfl, beq_iff_eq.mpr (mask_family_and_kk 0xF x 0x29)⟩

theorem ldB (x : Nibble) : Statement (.ldB x) :=
  ⟨⟨"LD_B", 0xF0FF, 0xF033⟩, by decide, rfl, beq_iff_eq.mpr (mask_family_and_kk 0xF x 0x33)⟩

theorem stRegs (x : Nibble) : Statement (.stRegs x) :=
  ⟨⟨"ST_REGS", 0xF0FF, 0xF055⟩, by decide, rfl, beq_iff_eq.mpr (mask_family_and_kk 0xF x 0x55)⟩

theorem ldRegs (x : Nibble) : Statement (.ldRegs x) :=
  ⟨⟨"LD_REGS", 0xF0FF, 0xF065⟩, by decide, rfl, beq_iff_eq.mpr (mask_family_and_kk 0xF x 0x65)⟩

end Sys2Proof.Laws.TableRow
end

