-- ==== Sys2Proof/Tests/Slice0.lean ====
section
/-! SUPPORT. Tests whose expected results come from the spec (95_test_vectors.md unless said otherwise), and
one witness per statement that has hypotheses. -/

namespace Sys2Proof.Tests

open Sys2Proof.Machine Sys2Proof.Safety

/-! ## WellFormed -/

theorem test_wellFormed_refuses_the_clear_word_as_sys : WellFormed (.sys 0x0E0) = false := by decide
theorem test_wellFormed_refuses_the_return_word_as_sys : WellFormed (.sys 0x0EE) = false := by decide
theorem test_wellFormed_accepts_their_neighbours :
    WellFormed (.sys 0x0E1) = true ∧ WellFormed (.sys 0x1E0) = true ∧ WellFormed (.drw 15 0 10) = true := by decide

/-! ## Decoding: words written out from the pattern column of 30_encoding.md R105 and from part 2.1 -/

theorem test_decode_cls : decode 0x00E0 = .ok (.cls) := by decide
theorem test_decode_ret : decode 0x00EE = .ok (.ret) := by decide
theorem test_decode_sys : decode 0x0123 = .ok (.sys 0x123) := by decide
theorem test_decode_jp : decode 0x1ABC = .ok (.jp 0xABC) := by decide
theorem test_decode_call : decode 0x2ABC = .ok (.call 0xABC) := by decide
theorem test_decode_seImm : decode 0x317F = .ok (.seImm 1 0x7F) := by decide
theorem test_decode_sneImm : decode 0x4310 = .ok (.sneImm 3 0x10) := by decide
theorem test_decode_seReg : decode 0x5120 = .ok (.seReg 1 2) := by decide
theorem test_decode_ldImm : decode 0x6A3E = .ok (.ldImm 10 0x3E) := by decide
theorem test_decode_addImm : decode 0x7102 = .ok (.addImm 1 2) := by decide
theorem test_decode_ldReg : decode 0x8120 = .ok (.ldReg 1 2) := by decide
theorem test_decode_orReg : decode 0x8121 = .ok (.orReg 1 2) := by decide
theorem test_decode_andReg : decode 0x8122 = .ok (.andReg 1 2) := by decide
theorem test_decode_xorReg : decode 0x8123 = .ok (.xorReg 1 2) := by decide
theorem test_decode_addReg : decode 0x8F14 = .ok (.addReg 15 1) := by decide
theorem test_decode_sub : decode 0x80F5 = .ok (.sub 0 15) := by decide
theorem test_decode_shr : decode 0x8126 = .ok (.shr 1 2) := by decide
theorem test_decode_subn : decode 0x8127 = .ok (.subn 1 2) := by decide
theorem test_decode_shl : decode 0x812E = .ok (.shl 1 2) := by decide
theorem test_decode_sneReg : decode 0x9120 = .ok (.sneReg 1 2) := by decide
theorem test_decode_ldI : decode 0xA20C = .ok (.ldI 0x20C) := by decide
theorem test_decode_jpV0 : decode 0xB123 = .ok (.jpV0 0x123) := by decide
theorem test_decode_rnd : decode 0xC10F = .ok (.rnd 1 0x0F) := by decide
theorem test_decode_drw : decode 0xDAB2 = .ok (.drw 10 11 2) := by decide
theorem test_decode_skp : decode 0xE19E = .ok (.skp 1) := by decide
theorem test_decode_sknp : decode 0xE1A1 = .ok (.sknp 1) := by decide
theorem test_decode_ldVxDt : decode 0xF307 = .ok (.ldVxDt 3) := by decide
theorem test_decode_ldVxK : decode 0xF30A = .ok (.ldVxK 3) := by decide
theorem test_decode_ldDtVx : decode 0xF015 = .ok (.ldDtVx 0) := by decide
theorem test_decode_ldStVx : decode 0xF018 = .ok (.ldStVx 0) := by decide
theorem test_decode_addI : decode 0xF21E = .ok (.addI 2) := by decide
theorem test_decode_ldF : decode 0xF329 = .ok (.ldF 3) := by decide
theorem test_decode_ldB : decode 0xF033 = .ok (.ldB 0) := by decide
theorem test_decode_stRegs : decode 0xF255 = .ok (.stRegs 2) := by decide
theorem test_decode_ldRegs : decode 0xF165 = .ok (.ldRegs 1) := by decide

theorem test_decode_no_operation_words :
    decode 0x0000 = .ok (.sys 0) ∧ decode 0x00E1 = .ok (.sys 0x0E1) ∧ decode 0x00FF = .ok (.sys 0x0FF) ∧
    decode 0x0FFF = .ok (.sys 0xFFF) := by decide
theorem test_decode_refuses_family_5 : decode 0x5121 = .error (.family5 1) := by decide
theorem test_decode_refuses_family_8 :
    decode 0x8128 = .error (.family8 8) ∧ decode 0x812D = .error (.family8 13) ∧
    decode 0x812F = .error (.family8 15) := by decide
theorem test_decode_refuses_family_9 : decode 0x9121 = .error (.family9 1) := by decide
theorem test_decode_refuses_family_E :
    decode 0xE100 = .error (.familyE 0x00) ∧ decode 0xE19F = .error (.familyE 0x9F) ∧
    decode 0xE1A0 = .error (.familyE 0xA0) := by decide
theorem test_decode_refuses_family_F :
    decode 0xF100 = .error (.familyF 0x00) ∧ decode 0xF108 = .error (.familyF 0x08) ∧
    decode 0xF175 = .error (.familyF 0x75) := by decide

/-- The high byte stands first (20_memory.md R73), and the rest of the bytes is handed back. -/
theorem test_decodeBytes_high_byte_first : decodeBytes [0x12, 0x08, 0xAA] = .ok (.jp 0x208, [0xAA]) := by decide
theorem test_decodeBytes_needs_two_bytes : decodeBytes [0x12] = .error .truncated := by decide
theorem test_decodeTableWord_reads_the_table_numbering : decodeTableWord 16 0x2208 = some (.call 0x208) := by decide
/-- P1: the words of its image. -/
theorem test_encode_writes_the_words :
    encode (.ldImm 0 5) = 0x6005 ∧ encode (.addImm 0 5) = 0x7005 ∧ encode (.jp 0x200) = 0x1200 := by decide

/-! ## Small states -/

/-- The reset state inside the instruction whose word is `w`, fetched from 0x200. -/
def inside (w : Word16) : State := { State.reset with pc := 0x202, ir := w }

/-- What an instruction leaves of the part that `part` reads. -/
def after {α : Type} (i : Instr) (s : State) (part : State → α) : Option α :=
  match exec i s with
  | .next t => some (part t)
  | .fault _ => none
  | .refused _ => none

/-- What one step leaves of the part that `part` reads. -/
def stepped {α : Type} (s : State) (part : State → α) : Option α :=
  match step s with
  | .next t => some (part t)
  | .fault _ => none
  | .refused _ => none

/-- `V[x]` and VF. -/
def regAndFlag (x : Nibble) (s : State) : Byte × Byte := (s.getV x, s.getV 15)

/-- The pixel (0, 0) on and no other. -/
def oneLit : Framebuffer := (setPixel clearFb 0 0).1

/-- A state with the key `k` held and last pressed. -/
def holding (k : Nibble) (s : State) : State := keyDown k s

/-- A state of the given depth with every stack entry 0x345. -/
def deep (d : Fin 17) : State := { inside 0x00EE with sp := d, stack := Vector.replicate 16 0x345 }

/-- The cells of three registers at 0x300. -/
def threeBytes (a b c : Byte) (s : State) : State := writeBytes 0x300 [a, b, c] { s with i := 0x300 }

/-! ## One instruction each: part 2.2 -/

theorem test_sys_changes_nothing : exec (.sys 0x123) (inside 0x0123) = .next (inside 0x0123) := rfl
theorem test_ret_pops : after .ret (deep 2) (fun t => (t.pc, t.sp.val)) = some (0x345, 1) := by decide
theorem test_ret_underflow : after .ret (deep 0) (fun t => (t.pc, t.err)) =
    some (0x202, some ⟨.stackUnderflow, 0x200, 0x00EE, none⟩) := by decide
theorem test_jp_may_be_odd : after (.jp 0x201) (inside 0x1201) (·.pc) = some 0x201 := by decide
theorem test_call_pushes_the_advanced_pc : after (.call 0xABC) (inside 0x2ABC)
    (fun t => (t.pc, t.sp.val, t.stackEntry 0)) = some (0xABC, 1, 0x202) := by decide
theorem test_call_overflow : after (.call 0xABC) { deep 16 with ir := 0x2ABC } (fun t => (t.run, t.err)) =
    some (.halted (.fatal .stackOverflow), some ⟨.stackOverflow, 0x200, 0x2ABC, none⟩) := by decide
theorem test_seImm_equal : after (.seImm 1 0x7F) ((inside 0x317F).setV 1 0x7F) (·.pc) = some 0x204 := by decide
theorem test_seImm_differs : after (.seImm 1 0x80) ((inside 0x3180).setV 1 0x7F) (·.pc) = some 0x202 := by decide
theorem test_sneImm_equal : after (.sneImm 3 0x10) ((inside 0x4310).setV 3 0x10) (·.pc) = some 0x202 := by decide
theorem test_sneImm_differs : after (.sneImm 3 0x11) ((inside 0x4311).setV 3 0x10) (·.pc) = some 0x204 := by decide
theorem test_seReg_equal : after (.seReg 2 3) (inside 0x5230) (·.pc) = some 0x204 := by decide
theorem test_seReg_differs : after (.seReg 2 3) ((inside 0x5230).setV 2 1) (·.pc) = some 0x202 := by decide
theorem test_sneReg_differs : after (.sneReg 2 3) ((inside 0x9230).setV 2 1) (·.pc) = some 0x204 := by decide
theorem test_sneReg_same_register : after (.sneReg 2 2) (inside 0x9220) (·.pc) = some 0x202 := by decide
theorem test_jpV0_is_not_masked : after (.jpV0 0xFFF) ((inside 0xBFFF).setV 0 0xFF) (·.pc) = some 0x10FE := by decide
theorem test_jpV0_adds_register_0 : after (.jpV0 0x1FE) (((inside 0xB1FE).setV 0 1).setV 1 0x80) (·.pc) =
    some 0x1FF := by decide

/-! ## Part 2.3 -/

theorem test_ldImm : after (.ldImm 10 0x3E) (inside 0x6A3E) (regAndFlag 10) = some (0x3E, 0) := by decide
theorem test_addImm_leaves_the_flag : after (.addImm 1 2) (((inside 0x7102).setV 1 0xFF).setV 15 1) (regAndFlag 1) =
    some (0x01, 1) := by decide
theorem test_ldReg : after (.ldReg 1 2) ((inside 0x8120).setV 2 0x5A) (regAndFlag 1) = some (0x5A, 0) := by decide
theorem test_orReg : after (.orReg 0 1) ((((inside 0x8011).setV 0 0xF0).setV 1 0x0F).setV 15 1) (regAndFlag 0) =
    some (0xFF, 1) := by decide
theorem test_andReg : after (.andReg 0 1) ((((inside 0x8012).setV 0 0xF0).setV 1 0x3C).setV 15 1) (regAndFlag 0) =
    some (0x30, 1) := by decide
theorem test_xorReg : after (.xorReg 0 1) ((((inside 0x8013).setV 0 0xF0).setV 1 0x3C).setV 15 1) (regAndFlag 0) =
    some (0xCC, 1) := by decide
theorem test_xorReg_same_register : after (.xorReg 4 4) ((inside 0x8443).setV 4 0x5A) (·.getV 4) = some 0 := by decide
theorem test_addReg_carry : after (.addReg 0 1) (((inside 0x8014).setV 0 0xFF).setV 1 1) (regAndFlag 0) =
    some (0x00, 1) := by decide
theorem test_addReg_sum_remains_in_flag : after (.addReg 15 1) (((inside 0x8F14).setV 15 0xFF).setV 1 1)
    (·.getV 15) = some 0x00 := by decide
theorem test_sub_wraps : after (.sub 0 1) (((inside 0x8015).setV 0 1).setV 1 2) (regAndFlag 0) =
    some (0xFF, 0) := by decide
theorem test_sub_by_the_flag_register : after (.sub 0 15) (((inside 0x80F5).setV 0 9).setV 15 5) (regAndFlag 0) =
    some (4, 1) := by decide
theorem test_shr_ignores_y : after (.shr 0 1) (((inside 0x8016).setV 0 4).setV 1 0xFF) (regAndFlag 0) =
    some (2, 0) := by decide
theorem test_shr_result_remains_in_flag : after (.shr 15 0) ((inside 0x8F06).setV 15 1) (·.getV 15) =
    some 0 := by decide
theorem test_subn : after (.subn 0 1) (((inside 0x8017).setV 0 1).setV 1 3) (regAndFlag 0) = some (2, 1) := by decide
theorem test_subn_result_remains_in_flag : after (.subn 15 1) (((inside 0x8F17).setV 15 1).setV 1 3) (·.getV 15) =
    some 2 := by decide
theorem test_shl : after (.shl 0 1) ((inside 0x801E).setV 0 0x81) (regAndFlag 0) = some (2, 1) := by decide
theorem test_shl_result_remains_in_flag : after (.shl 15 0) ((inside 0x8F0E).setV 15 0x81) (·.getV 15) =
    some 2 := by decide
/-- Whatever the byte drawn: with the mask 00 the result is 00. -/
theorem test_rnd_under_an_empty_mask : after (.rnd 1 0) ((inside 0xC100).setV 1 0xA7) (·.getV 1) = some 0 := by
  simp [after, exec, execRnd]

/-! ## Part 2.4 -/

theorem test_ldI : after (.ldI 0xFFF) (inside 0xAFFF) (·.i) = some 0x0FFF := by decide
theorem test_addI_passes_the_address_space : after (.addI 2) (({ inside 0xF21E with i := 0xFFE }).setV 2 5)
    (fun t => (t.i, t.getV 15)) = some (0x1003, 0) := by decide
theorem test_addI_wraps : after (.addI 2) (({ inside 0xF21E with i := 0xFFFF }).setV 2 1)
    (fun t => (t.i, t.getV 15)) = some (0, 0) := by decide
theorem test_ldF_last_glyph : after (.ldF 3) ((inside 0xF329).setV 3 0x0F) (·.i) = some 0x4B := by decide
theorem test_ldF_is_not_masked : after (.ldF 3) ((inside 0xF329).setV 3 0xFF) (·.i) = some 0x4FB := by decide
theorem test_ldB_last_legal_position : after (.ldB 0) (({ inside 0xF033 with i := 0xFFD }).setV 0 0x7B)
    (fun t => (t.peek 0xFFD, t.peek 0xFFE, t.peek 0xFFF)) = some (1, 2, 3) := by decide
theorem test_ldB_writes_nothing_when_it_faults : after (.ldB 0) (({ inside 0xF033 with i := 0xFFE }).setV 0 0x7B)
    (fun t => (t.mem, t.err, t.pc)) =
    some ([], some ⟨.outOfBounds, 0x200, 0xF033, some 0x1000⟩, 0x202) := by decide
theorem test_stRegs_stores_one_register : after (.stRegs 0) (threeBytes 0 0x22 0 ((inside 0xF055).setV 0 0x11))
    (fun t => (t.peek 0x300, t.peek 0x301, t.i)) = some (0x11, 0x22, 0x300) := by decide
theorem test_stRegs_faults_before_any_byte : after (.stRegs 15) ({ inside 0xFF55 with i := 0xFF1 }.setV 0 1)
    (fun t => (t.mem, t.err)) = some ([], some ⟨.outOfBounds, 0x200, 0xFF55, some 0x1000⟩) := by decide
theorem test_ldRegs_stops_at_x : after (.ldRegs 1) (threeBytes 0xAA 0xBB 0xCC ((inside 0xF165).setV 2 0x77))
    (fun t => (t.getV 0, t.getV 1, t.getV 2, t.i)) = some (0xAA, 0xBB, 0x77, 0x300) := by decide
theorem test_ldRegs_faults : after (.ldRegs 1) ({ inside 0xF165 with i := 0xFFF }.setV 0 9)
    (fun t => (t.getV 0, t.err)) = some (9, some ⟨.outOfBounds, 0x200, 0xF165, some 0x1000⟩) := by decide

/-! ## Part 2.5 -/

theorem test_cls : after .cls { inside 0x00E0 with fb := oneLit } (fun t => (pixel t.fb 0 0, t.dirty)) =
    some (false, true) := by decide
theorem test_drw_collides : after (.drw 0 1 1) (threeBytes 0xC0 0 0 { inside 0xD011 with fb := oneLit })
    (fun t => (pixel t.fb 0 0, pixel t.fb 1 0, t.getV 15)) = some (false, true, 1) := by decide
/-- S6: the row FF at x = 63. -/
theorem test_drw_wraps : after (.drw 0 1 1) (threeBytes 0xFF 0 0 ((inside 0xD011).setV 0 63))
    (fun t => (pixel t.fb 63 0, pixel t.fb 0 0, pixel t.fb 6 0, pixel t.fb 7 0)) =
    some (true, true, true, false) := by decide

/-! ## Part 2.6 -/

theorem test_skp_held : after (.skp 0) (holding 5 ((inside 0xE09E).setV 0 5)) (·.pc) = some 0x204 := by decide
theorem test_skp_is_not_masked : after (.skp 0) (holding 5 ((inside 0xE09E).setV 0 0x15)) (·.pc) = some 0x202 := by decide
theorem test_sknp_held : after (.sknp 0) (holding 5 ((inside 0xE0A1).setV 0 5)) (·.pc) = some 0x202 := by decide
theorem test_sknp_no_key_above_15 : after (.sknp 0) (holding 0 ((inside 0xE0A1).setV 0 16)) (·.pc) = some 0x204 := by decide
theorem test_ldVxDt : after (.ldVxDt 3) { inside 0xF307 with dt := 0x2A } (fun t => (t.getV 3, t.dt)) =
    some (0x2A, 0x2A) := by decide
theorem test_ldVxK_takes_the_last_pressed : after (.ldVxK 3) (keyUp 2 (keyDown 2 (keyDown 1 (inside 0xF30A))))
    (fun t => (t.getV 3, t.run)) = some (2, .running) := by decide
theorem test_ldVxK_waits : after (.ldVxK 3) (inside 0xF30A) (fun t => (t.getV 3, t.run, t.pc)) =
    some (0, .waitKey, 0x202) := by decide
theorem test_ldDtVx : after (.ldDtVx 0) ((inside 0xF015).setV 0 3) (·.dt) = some 3 := by decide
theorem test_ldStVx : after (.ldStVx 0) ((inside 0xF018).setV 0 0x10) (·.st) = some 0x10 := by decide

/-! ## Steps -/

/-- The reset state with a word at the entry. -/
def fetching (w : Nat) : State := State.reset.withFetchWord 16 w

theorem test_step_runs_the_placed_word : stepped (fetching 0x6A3E) (fun t => (t.getV 10, t.pc, t.ir, t.cyc.val)) =
    some (0x3E, 0x202, 0x6A3E, 1) := by decide
/-- "DT = 02, CYC = 0 (the write, then the end-of-tick decrement in the same step)". -/
theorem test_step_tenth_cycle : stepped { fetching 0xF015 with cyc := 9, v := Vector.replicate 16 3 }
    (fun t => (t.dt, t.st, t.cyc.val)) = some (2, 0, 0) := by decide
/-- `CYC = 9`, `DIRTY = 0`, `00E0`: one `Paint` of no pixel. -/
theorem test_step_paints_the_clear_frame : stepped { fetching 0x00E0 with cyc := 9, fb := oneLit }
    (fun t => (t.dirty, t.outbox)) = some (false, [.paint clearFb 64 32]) := by decide
theorem test_step_skips_an_invalid_word : stepped { fetching 0x5001 with config := { Config.default with diag := true } }
    (fun t => (t.pc, t.cyc.val, t.outbox)) = some (0x202, 1, [.invalidReport 0x200 0x5001]) := by decide
theorem test_step_stop_request : stepped { fetching 0x6A3E with stopReq := true } (fun t => (t.run, t.pc, t.cyc.val)) =
    some (.halted .stopped, 0x200, 0) := by decide
/-- P6, step 1793: the fetch at 0x1000. -/
theorem test_step_fetch_outside : stepped { State.reset with pc := 0x1000 } (fun t => (t.run, t.pc, t.ir)) =
    some (.halted (.fatal .outOfBounds), 0x1000, 0) := by decide
/-- P8: the key ends the wait. -/
theorem test_step_wait_ends : stepped (holding 7 { inside 0xF10A with run := .waitKey })
    (fun t => (t.getV 1, t.run, t.cyc.val)) = some (7, .running, 1) := by decide
theorem test_step_key_down : stepped { State.reset with schedule := [.host (.keyDown 9)] }
    (fun t => (t.key[9], t.lastKey, t.schedule)) = some (true, 9, []) := by decide
/-- P1: the image of its first two words. -/
theorem test_step_reset : stepped { deep 3 with schedule := [.host (.reset [0x60, 0x05])] }
    (fun t => (t.peek 0x200, t.peek 0x201, t.peek 0, t.pc, t.sp.val)) = some (0x60, 0x05, 0xF0, 0x200, 0) := by decide
theorem test_halted_has_no_step : step { State.reset with run := .halted .stopped } = .fault (.halted .stopped) := rfl

/-! ## Witnesses: for each statement with hypotheses, a state and operands that meet all of them, one for each
clause, at the boundary of its range. -/

/-- The instruction answers a next state. -/
abbrev Answers (i : Instr) (s : State) : Prop := ∃ t, exec i s = .next t

theorem witness_EncodedInstructionDecodesBack :
    WellFormed (.sys 0x0E1) = true ∧ WellFormed (.drw 15 15 15) = true := by decide
theorem witness_DecodedWordEncodesBack : decode 0xFF65 = .ok (.ldRegs 15) ∧ decode 0x0000 = .ok (.sys 0) := by decide
theorem witness_MemoryReadsTheLastWrite :
    (∃ t, memWrite State.reset 4095 7 = .ok t) ∧ memWrite State.reset 4096 7 = .error 4096 ∧
    (4095 : Nat) < 4096 ∧ (4094 : Nat) ≠ 4095 := ⟨⟨_, rfl⟩, rfl, by decide, by decide⟩
theorem witness_StoredBytesAreTheNextInstruction :
    1 ≤ (1 : Nibble).toNat ∧ ({ inside 0xF155 with i := 0x202 } : State).i = (inside 0xF155).pc ∧
    ∃ s : State, s.i = s.pc ∧ s.i.toNat + (1 : Nibble).toNat = 4095 :=
  ⟨by decide, rfl, { inside 0xF155 with i := 0xFFE, pc := 0xFFE }, rfl, by decide⟩
theorem witness_SysDoesNothing : (0x0E1 : Addr12) ≠ 0x0E0 ∧ (0x0E1 : Addr12) ≠ 0x0EE := by decide
theorem witness_ReturnPopsTheNewestAddress :
    0 < (deep 1).sp.val ∧ 0 < (deep 16).sp.val ∧ (deep 0).sp.val = 0 := by decide
theorem witness_CallPushesTheReturnAddress :
    (deep 0).sp.val < 16 ∧ (deep 15).sp.val < 16 ∧ (deep 16).sp.val = 16 := by decide
theorem witness_StackExceptionsAreRecorded : (deep 16).sp.val = 16 ∧ (deep 0).sp.val = 0 := by decide
theorem witness_ReturnUndoesCall : (deep 15).sp.val < 16 := by decide
theorem witness_ImmediateSkipsCompareEquality :
    ((inside 0x31FF).setV 1 0xFF).getV 1 = 0xFF ∧ ((inside 0x31FE).setV 1 0xFF).getV 1 ≠ 0xFE := by decide
theorem witness_RegisterSkipsCompareEquality :
    (inside 0x5230).getV 2 = (inside 0x5230).getV 3 ∧
    ((inside 0x5230).setV 2 1).getV 2 ≠ ((inside 0x5230).setV 2 1).getV 3 ∧
    (1 : Nibble) ≠ 0 ∧ (15 : Nibble) ≠ 0 := by decide
theorem witness_OnlyTransfersAssignThePc :
    assignsPc (.ldImm 0 5) = false ∧ Answers (.ldImm 0 5) (inside 0x6005) := ⟨rfl, _, rfl⟩
/-- The sums 256 and 255, and a destination other than VF. -/
theorem witness_AddRegisterSetsCarry :
    (14 : Nibble) ≠ 15 ∧ carryFlag 0xFF 0x01 = true ∧ carryFlag 0xFE 0x01 = false := by decide
/-- The operands equal, and one apart. -/
theorem witness_SubtractionsSetStrictComparison :
    (14 : Nibble) ≠ 15 ∧ greaterFlag 5 5 = false ∧ greaterFlag 6 5 = true := by decide
theorem witness_ShiftsMoveOnePositionAndReportTheBit :
    (14 : Nibble) ≠ 15 ∧ bit0Flag 0x03 = true ∧ bit7Flag 0x80 = true := by decide
theorem witness_RandomByteIsMasked : (0x0F : Byte).getLsbD 4 = false := by decide
theorem witness_RegistersChangeOnlyAsDestinations :
    isDestination (.addReg 0 1) 2 = false ∧ writesFlag (.addReg 0 1) = true ∧ (2 : Nibble) ≠ 15 ∧
    isDestination (.ldRegs 14) 15 = false ∧ writesFlag (.ldRegs 14) = false ∧
    Answers (.addReg 0 1) (inside 0x8014) ∧ Answers (.ldRegs 14) { inside 0xFE65 with i := 0x300 } :=
  ⟨by decide, rfl, by decide, by decide, rfl, ⟨_, rfl⟩, _, rfl⟩
theorem witness_DecimalDigitsAreStored :
    ({ inside 0xF033 with i := 0xFFD } : State).i.toNat + 2 ≤ 4095 ∧
    4095 < ({ inside 0xF033 with i := 0xFFE } : State).i.toNat + 2 := by decide
theorem witness_RegisterBlockIsStored :
    ({ inside 0xFF55 with i := 0xFF0 } : State).i.toNat + (15 : Nibble).toNat ≤ 4095 ∧
    4095 < ({ inside 0xFF55 with i := 0xFF1 } : State).i.toNat + (15 : Nibble).toNat := by decide
theorem witness_RegisterBlockIsLoaded :
    ({ inside 0xF165 with i := 0xFFE } : State).i.toNat + (1 : Nibble).toNat ≤ 4095 ∧
    4095 < ({ inside 0xF165 with i := 0xFFF } : State).i.toNat + (1 : Nibble).toNat := by decide

/-- The pixel (0, 0) is lit and lies under the one set bit of the row 80 drawn at (0, 0). -/
theorem witness_DrawTogglesExactlyTheCoveredPixels_collision :
    ∃ px py, px < 64 ∧ py < 32 ∧ pixel oneLit px py = true ∧ Covers [0x80] 0 0 px py :=
  ⟨0, 0, by decide, by decide, by decide, 0, by decide, 0, by decide, by decide, by decide, by decide⟩
/-- A row without a set bit covers nothing. -/
theorem witness_DrawTogglesExactlyTheCoveredPixels_no_collision :
    ¬ ∃ px py, px < 64 ∧ py < 32 ∧ pixel oneLit px py = true ∧ Covers [] 0 0 px py := by
  rintro ⟨_, _, _, _, _, r, hr, _⟩
  exact absurd hr (Nat.not_lt_zero r)
/-- No row at any `I`; one row at the last byte; two rows there. -/
theorem witness_DrawTogglesExactlyTheCoveredPixels_span :
    ((0 : Nibble).toNat = 0 ∨ ({ inside 0xD010 with i := 0x1000 } : State).i.toNat + (0 : Nibble).toNat - 1 ≤ 4095) ∧
    ({ inside 0xD011 with i := 0xFFF } : State).i.toNat + (1 : Nibble).toNat - 1 ≤ 4095 ∧
    0 < (2 : Nibble).toNat ∧ 4095 < ({ inside 0xD012 with i := 0xFFF } : State).i.toNat + (2 : Nibble).toNat - 1 := by
  decide
/-- The state between two draws of the first row of glyph 0 at (5, 0), the position 5 in `V[15]`: the first draw
leaves 0 there, and it is loaded again. -/
def redrawn : State := { (inside 0xDF11).setV 15 5 with fb := drawAt (inside 0xDF11) 5 0 [0xF0] |>.1 }

theorem witness_DrawingTwiceRestoresTheFrame :
    ∃ s t u : State, s.i.toNat + (1 : Nibble).toNat - 1 ≤ 4095 ∧ exec (.drw 0 1 1) s = .next t ∧
      t.fb = t.fb ∧ t.peek (effAddr t 0) = s.peek (effAddr s 0) ∧ t.i.toNat + (1 : Nibble).toNat - 1 ≤ 4095 ∧
      t.getV 0 = s.getV 0 ∧ t.getV 1 = s.getV 1 ∧ exec (.drw 0 1 1) t = .next u :=
  ⟨inside 0xD011, _, _, by decide, rfl, rfl, rfl, by decide, rfl, rfl, rfl⟩
/-- The position in `V[15]`, moved by the first draw and loaded again before the second. -/
theorem witness_DrawingTwiceRestoresTheFrame_flag_as_position :
    ∃ s t u : State, s.getV 15 = 5 ∧ exec (.drw 15 1 1) s = .next t ∧ t.getV 15 = 0 ∧ redrawn.fb = t.fb ∧
      redrawn.peek (effAddr redrawn 0) = s.peek (effAddr s 0) ∧
      redrawn.i.toNat + (1 : Nibble).toNat - 1 ≤ 4095 ∧ redrawn.getV 15 = s.getV 15 ∧
      redrawn.getV 1 = s.getV 1 ∧ exec (.drw 15 1 1) redrawn = .next u :=
  ⟨(inside 0xDF11).setV 15 5, _, _, rfl, rfl, by decide, by decide, rfl, by decide, rfl, rfl, rfl⟩

theorem witness_KeySkipsTestTheHeldKey :
    KeyHeld (holding 15 (inside 0xE09E)) 15 ∧ ¬ KeyHeld (holding 15 (inside 0xE09E)) 14 ∧
    ¬ KeyHeld (holding 15 (inside 0xE09E)) 16 :=
  ⟨⟨by decide, by decide⟩, fun ⟨_, h⟩ => Bool.false_ne_true h, fun ⟨h, _⟩ => absurd h (by decide)⟩
theorem witness_KeyReadCompletesOrWaits :
    (∃ k : Nibble, (holding 15 (inside 0xF30A)).key[k.toNat]'k.isLt = true) ∧
    (∀ k : Nibble, (inside 0xF30A).key[k.toNat]'k.isLt = false) := ⟨⟨15, by decide⟩, by decide⟩

/-- A word at the last place of Memory, with the core's turn listed. -/
def atTheEnd (w : Nat) : State := { State.reset with pc := 4094, schedule := [.core] }.withFetchWord 16 w

theorem witness_StepRunsTheDecodedInstruction :
    CoreDue (fetching 0x6A3E) (fetching 0x6A3E) ∧ (fetching 0x6A3E).run = .running ∧
    (fetching 0x6A3E).stopReq = false ∧ (fetching 0x6A3E).pc.toNat ≤ 4094 ∧
    decode ((fetching 0x6A3E).peek (fetching 0x6A3E).pc.toNat ++
      (fetching 0x6A3E).peek ((fetching 0x6A3E).pc.toNat + 1)) = .ok (.ldImm 10 0x3E) :=
  ⟨.inl ⟨rfl, rfl⟩, rfl, rfl, by decide, by decide⟩
theorem witness_StepRunsTheDecodedInstruction_at_the_end :
    CoreDue (atTheEnd 0x1200) { atTheEnd 0x1200 with schedule := [] } ∧ (atTheEnd 0x1200).pc.toNat = 4094 ∧
    decode ((atTheEnd 0x1200).peek 4094 ++ (atTheEnd 0x1200).peek 4095) = .ok (.jp 0x200) :=
  ⟨.inr ⟨[], rfl, rfl⟩, by decide, by decide⟩
theorem witness_InvalidWordIsSkipped :
    CoreDue (fetching 0x5001) (fetching 0x5001) ∧ (fetching 0x5001).run = .running ∧
    (fetching 0x5001).stopReq = false ∧ (fetching 0x5001).pc.toNat ≤ 4094 ∧
    decode ((fetching 0x5001).peek (fetching 0x5001).pc.toNat ++
      (fetching 0x5001).peek ((fetching 0x5001).pc.toNat + 1)) = .error (.family5 1) ∧
    (fetching 0x5001).config.diag = false ∧ Config.diag { Config.default with diag := true } = true :=
  ⟨.inl ⟨rfl, rfl⟩, rfl, rfl, by decide, by decide, rfl, rfl⟩
theorem witness_TenthCycleEndsTheTick :
    ({ State.reset with cyc := 8 } : State).cyc.val < 9 ∧ ({ State.reset with cyc := 9 } : State).cyc.val = 9 ∧
    State.reset.dirty = false ∧ (State.reset.setFb oneLit).dirty = true := by decide
theorem witness_FetchOutsideMemoryHalts :
    ∃ s u : State, CoreDue s s ∧ s.run = .running ∧ s.stopReq = false ∧ s.pc.toNat = 4095 ∧
      CoreDue u u ∧ u.run = .running ∧ u.stopReq = false ∧ u.pc.toNat = 4096 :=
  ⟨{ State.reset with pc := 0xFFF }, { State.reset with pc := 0x1000 }, .inl ⟨rfl, rfl⟩, rfl, rfl, by decide,
    .inl ⟨rfl, rfl⟩, rfl, rfl, by decide⟩
theorem witness_FatalExceptionsArePrecise :
    ∃ t, (deep 0).run = .running ∧ exec .ret (deep 0) = .next t ∧ t.run = .halted (.fatal .stackUnderflow) :=
  ⟨_, rfl, rfl, rfl⟩
theorem witness_StopRequestHaltsAtTheBoundary :
    ∃ s u : State, CoreDue s s ∧ s.run = .running ∧ s.stopReq = true ∧
      CoreDue u u ∧ u.run = .waitKey ∧ u.stopReq = true :=
  ⟨{ State.reset with stopReq := true }, { inside 0xF10A with stopReq := true, run := .waitKey },
    .inl ⟨rfl, rfl⟩, rfl, rfl, .inl ⟨rfl, rfl⟩, rfl, rfl⟩

/-- The core waiting in P8. -/
def waiting : State := { inside 0xF10A with run := .waitKey }

theorem witness_WaitEndsWhenAKeyIsHeld :
    CoreDue waiting waiting ∧ waiting.run = .waitKey ∧ waiting.stopReq = false ∧
    (∀ k : Nibble, waiting.key[k.toNat]'k.isLt = false) ∧
    CoreDue (holding 7 waiting) (holding 7 waiting) ∧ (holding 7 waiting).run = .waitKey ∧
    (holding 7 waiting).stopReq = false ∧ ∃ k : Nibble, (holding 7 waiting).key[k.toNat]'k.isLt = true :=
  ⟨.inl ⟨rfl, rfl⟩, rfl, rfl, by decide, .inl ⟨rfl, rfl⟩, rfl, rfl, 7, by decide⟩

/-- The halted core with the given turns to come. -/
def haltedThen (turns : List Turn) : State := { State.reset with run := .halted .stopped, schedule := turns }

theorem witness_HaltedCoreHasNoStep :
    CoreDue (haltedThen []) (haltedThen []) ∧ (haltedThen []).run = .halted .stopped := ⟨.inl ⟨rfl, rfl⟩, rfl⟩
theorem witness_OnlyResetLeavesHalted :
    ∃ t, (haltedThen [.host .stopReq]).run = .halted .stopped ∧ step (haltedThen [.host .stopReq]) = .next t ∧
      ∀ rom rest, (haltedThen [.host .stopReq]).schedule ≠ .host (.reset rom) :: rest :=
  ⟨_, rfl, rfl, fun _ _ h => nomatch h⟩
theorem witness_KeyStepsWriteOneFlag :
    (haltedThen [.host (.keyDown 15)]).schedule = .host (.keyDown 15) :: [] ∧
    (haltedThen [.host (.keyUp 0)]).schedule = .host (.keyUp 0) :: [] := ⟨rfl, rfl⟩
theorem witness_StopRequestSetsTheBit : (haltedThen [.host .stopReq]).schedule = .host .stopReq :: [] := rfl
/-- The stopped core's request outlives a key step, and stays where it halts a running core. -/
theorem witness_StopRequestIsSticky :
    ∃ s t u : State, s.stopReq = true ∧ s.schedule = [.host (.keyUp 0)] ∧ step s = .next t ∧
      (fetching 0x6A3E).schedule = [] ∧ step { fetching 0x6A3E with stopReq := true } = .next u :=
  ⟨{ haltedThen [.host (.keyUp 0)] with stopReq := true }, _, _, rfl, rfl, rfl, rfl, rfl⟩
theorem witness_ResetInstallsTheImage :
    (haltedThen [.host (.reset (List.replicate 3584 1))]).schedule = .host (.reset (List.replicate 3584 1)) :: [] ∧
    (List.replicate 3584 (1 : Byte)).length ≤ 3584 := ⟨rfl, by rw [List.length_replicate]⟩
theorem witness_ResetInstallsTheImage_empty :
    (haltedThen [.host (.reset [])]).schedule = .host (.reset []) :: [] ∧ ([] : List Byte).length ≤ 3584 :=
  ⟨rfl, by decide⟩
/-- The ends of the zero fill: below the image, and the last byte above the empty one. -/
theorem witness_zero_fill_bounds :
    80 ≤ 511 ∧ 511 < 0x200 ∧ 0x200 + ([] : List Byte).length ≤ 4095 ∧ 4095 < 4096 ∧ 79 < 80 := by decide
theorem witness_OverlongImageIsRefused :
    (haltedThen [.host (.reset (List.replicate 3585 1))]).schedule = .host (.reset (List.replicate 3585 1)) :: [] ∧
    3584 < (List.replicate 3585 (1 : Byte)).length := ⟨rfl, by rw [List.length_replicate]; decide⟩
theorem witness_EveryStepKeepsTheInvariant :
    ∃ t, MachineInv (fetching 0x2ABC) ∧ step (fetching 0x2ABC) = .next t :=
  ⟨_, ⟨by decide, by decide, fun k h => absurd h (Nat.not_lt_zero k),
    fun _ => ⟨fun h => (nomatch h), fun ⟨_, h, _⟩ => (nomatch h)⟩, fun h => nomatch h⟩, rfl⟩
/-- The invariant's clauses about a fatal halt and about the wait are met by more than their negations. -/
theorem witness_MachineInv_waiting : MachineInv waiting :=
  ⟨by decide, by decide, fun k h => absurd h (Nat.not_lt_zero k),
    fun _ => ⟨fun h => (nomatch h), fun ⟨_, h, _⟩ => (nomatch h)⟩, fun _ => ⟨1, by decide⟩⟩
theorem witness_CoreNeverWritesTheHostsInputs : ∃ t, coreStep (fetching 0x6A3E) = .next t := ⟨_, rfl⟩
theorem witness_EventsAreDeliveredInOrder :
    (∃ t, coreStep { fetching 0x00E0 with cyc := 9 } = .next t) ∧
    ∃ s : State, s.outbox = .paint clearFb 64 32 :: [] ∧ s.schedule = .host .takeEvent :: [] :=
  ⟨⟨_, rfl⟩, { haltedThen [.host .takeEvent] with outbox := [.paint clearFb 64 32] }, rfl, rfl⟩
theorem witness_DiagnosticsChangeNoTransition : ∃ t, step (fetching 0x5001) = .next t := ⟨_, rfl⟩
theorem witness_SoundTimerIsUnobservable : ∃ t, step { fetching 0xF018 with cyc := 9 } = .next t := ⟨_, rfl⟩

end Sys2Proof.Tests
end

section
/-! The memory primitives of R71 (20_memory.md): the bounds check of each, and O6. -/

namespace Sys2Proof.Machine

theorem memRead_of_lt (s : State) {a : Nat} (ha : a < 4096) : memRead s a = .ok (s.peek a) :=
  if_pos ha

theorem memRead_of_le (s : State) {a : Nat} (ha : 4096 ≤ a) : memRead s a = .error a :=
  if_neg (Nat.not_lt.mpr ha)

theorem memWrite_of_lt (s : State) {a : Nat} (b : Byte) (ha : a < 4096) :
    memWrite s a b = .ok (s.poke a b) :=
  if_pos ha

theorem memWrite_of_le (s : State) {a : Nat} (b : Byte) (ha : 4096 ≤ a) : memWrite s a b = .error a :=
  if_neg (Nat.not_lt.mpr ha)

/-- A store at `a` is seen by a read of `a` alone. -/
theorem memRead_poke_of_ne (s : State) {a q : Nat} (b : Byte) (hq : q ≠ a) :
    memRead (s.poke a b) q = memRead s q := by
  rw [memRead, State.poke_peek, if_neg hq, memRead]

theorem memRead_poke_self (s : State) {a : Nat} (b : Byte) (ha : a < 4096) :
    memRead (s.poke a b) a = .ok b := by
  rw [memRead_of_lt _ ha, State.poke_peek, if_pos rfl]

/-- Settles O6, by what `peek` gives after a `poke` on one side of the bounds check and by the failing
check on the other. -/
theorem memoryReadsTheLastWrite : Obligations.MemoryReadsTheLastWrite := by
  intro s a b
  constructor
  · intro ha
    exact ⟨s.poke a b, memWrite_of_lt s b ha, memRead_poke_self s b ha, fun _ => memRead_poke_of_ne s b⟩
  · intro ha
    exact ⟨memWrite_of_le s b ha, memRead_of_le s ha⟩

end Sys2Proof.Machine
end

section
/-! What decoding gives on the words of the control transfers (30_encoding.md R104, R106), by layout. -/

namespace Sys2Proof

/-- R150: the words of family 0 but the two fixed ones. -/
theorem decode_layoutNNN_sys {nnn : Addr12} (hcls : nnn ≠ 0x0E0) (hret : nnn ≠ 0x0EE) :
    decode (layoutNNN 0x0 nnn) = .ok (.sys nnn) := by
  have hneCls : layoutNNN 0x0 nnn ≠ 0x00E0#16 := fun e =>
    hcls ((fieldNNN_layoutNNN 0x0 nnn).symm.trans (congrArg fieldNNN e))
  have hneRet : layoutNNN 0x0 nnn ≠ 0x00EE#16 := fun e =>
    hret ((fieldNNN_layoutNNN 0x0 nnn).symm.trans (congrArg fieldNNN e))
  have hfamily : decode (layoutNNN 0x0 nnn) = .ok (decode0 (layoutNNN 0x0 nnn)) := by simp [decode]
  rw [hfamily, decode0, if_neg hneCls, if_neg hneRet, fieldNNN_layoutNNN]

theorem decode_layoutNNN_jp (nnn : Addr12) : decode (layoutNNN 0x1 nnn) = .ok (.jp nnn) := by
  simp [decode]

theorem decode_layoutNNN_call (nnn : Addr12) : decode (layoutNNN 0x2 nnn) = .ok (.call nnn) := by
  simp [decode]

theorem decode_layoutXKK_seImm (x : Nibble) (kk : Byte) :
    decode (layoutXKK 0x3 x kk) = .ok (.seImm x kk) := by
  simp [decode]

theorem decode_layoutXKK_sneImm (x : Nibble) (kk : Byte) :
    decode (layoutXKK 0x4 x kk) = .ok (.sneImm x kk) := by
  simp [decode]

/-- Family 5: the last nibble is checked. -/
theorem decode_layoutXYN_family5 (x y n : Nibble) :
    decode (layoutXYN 0x5 x y n) = if n = 0 then .ok (.seReg x y) else .error (.family5 n) := by
  simp [decode]

/-- Family 9: the last nibble is checked. -/
theorem decode_layoutXYN_family9 (x y n : Nibble) :
    decode (layoutXYN 0x9 x y n) = if n = 0 then .ok (.sneReg x y) else .error (.family9 n) := by
  simp [decode]

end Sys2Proof
end

section
/-! What the control transfers do (41_flow.md), one equation per case, and their frames. -/

namespace Sys2Proof.Machine

open Sys2Proof.Safety

theorem zext_toNat (nnn : Addr12) : nnn.zext.toNat = nnn.toNat :=
  BitVec.toNat_setWidth_of_le (by decide)

/-! Return and call (R151, R153). -/

theorem exec_ret_of_pos {s : State} (h : 0 < s.sp.val) :
    exec .ret s =
      .next ({ s with sp := poppedDepth s }.setPc (s.stackEntry (s.sp.val - 1))) := by
  refine (execRet_eq s).trans ?_
  rw [if_pos h]
  rfl

theorem exec_ret_of_empty {s : State} (h : s.sp.val = 0) :
    exec .ret s = .next (raiseFatal .stackUnderflow none s) := by
  refine (execRet_eq s).trans ?_
  rw [if_neg (by omega)]

theorem exec_call_of_lt (nnn : Addr12) {s : State} (h : s.sp.val < 16) :
    exec (.call nnn) s =
      .next ({ s with stack := s.stack.set s.sp.val s.pc h,
                      sp := ⟨s.sp.val + 1, by omega⟩ }.setPc nnn.zext) := by
  refine (execCall_eq nnn s).trans ?_
  rw [dif_pos h]
  rfl

theorem exec_call_of_full (nnn : Addr12) {s : State} (h : s.sp.val = 16) :
    exec (.call nnn) s = .next (raiseFatal .stackOverflow none s) := by
  refine (execCall_eq nnn s).trans ?_
  rw [dif_neg (by omega)]

theorem unchanged_setDepth (s : State) (d : Fin 17) :
    UnchangedBut (fun p => p = .sp) s { s with sp := d } := by
  intro p hp
  cases p with
  | sp => exact absurd rfl hp
  | _ => rfl

/-- A store of one stack entry, with the depth set. -/
theorem unchanged_setEntry (s : State) (k : Nat) (hk : k < 16) (w : Word16) (d : Fin 17) :
    UnchangedBut (fun p => p = .sp ∨ p = .stack k) s { s with stack := s.stack.set k w hk, sp := d } := by
  intro p hp
  cases p with
  | sp => exact absurd (.inl rfl) hp
  | stack q =>
    have hq : q ≠ k := fun e => hp (.inr (congrArg StatePart.stack e))
    exact (stackEntry_set s k hk w d q).trans (if_neg hq)
  | _ => rfl

/-- An instruction that answers `raiseFatal` halts the core, within the frame of an exception. -/
theorem halts_of_raiseFatal {i : Instr} {s : State} {k : FatalKind} {m : Option Nat}
    (h : exec i s = .next (raiseFatal k m s)) :
    ∃ t, exec i s = .next t ∧ t.run = .halted (.fatal k) ∧ UnchangedBut fatalParts s t :=
  ⟨_, h, fatal_run _ _ _ _ _, unchanged_fatal _ _ _ _ _⟩

/-! Skips (R154 to R157). -/

/-- An instruction that answers `skipIf c` adds 2 to `pc` when `c` holds and changes nothing else; `Skips`
and `Stays` are the condition and its negation as propositions. -/
theorem skips_of_skipIf {i : Instr} {s : State} {c : Bool} {Skips Stays : Prop}
    (h : exec i s = .next (skipIf c s)) (hskip : c = true ↔ Skips) (hstay : c = false ↔ Stays) :
    ∃ t, exec i s = .next t ∧ (Skips → t.pc = s.pc + 2) ∧ (Stays → t.pc = s.pc) ∧
      UnchangedBut (fun p => p = .pc) s t := by
  refine ⟨skipIf c s, h, fun hc => ?_, fun hc => ?_, unchanged_skipIf c s⟩
  · rw [hskip.mpr hc, skipIf_true, State.setPc_pc]
  · rw [hstay.mpr hc, skipIf_false]

/-! The statements. -/

/-- Settles O8: the word misses both fixed words of family 0, and SYS answers its state. -/
theorem sysDoesNothing : Obligations.SysDoesNothing :=
  fun _ _ hcls hret => ⟨decode_layoutNNN_sys hcls hret, rfl⟩

/-- Settles O9, by the two cases of the stack's depth. -/
theorem returnPopsTheNewestAddress : Obligations.ReturnPopsTheNewestAddress := by
  intro s
  refine ⟨by decide, fun hpos => ?_, fun hempty => halts_of_raiseFatal (exec_ret_of_empty hempty)⟩
  refine ⟨_, exec_ret_of_pos hpos, rfl, rfl, ?_⟩
  exact ((unchanged_setDepth s _).mono fun _ => .inr).trans ((unchanged_setPc _ _).mono fun _ => .inl)

/-- Settles O10: the target is assigned as it is, zero-extended. -/
theorem jumpGoesToTheTarget : Obligations.JumpGoesToTheTarget :=
  fun nnn s => ⟨decode_layoutNNN_jp nnn, s.setPc nnn.zext, rfl, zext_toNat nnn, unchanged_setPc s _⟩

/-- Settles O11, by the two cases of the stack's depth. -/
theorem callPushesTheReturnAddress : Obligations.CallPushesTheReturnAddress := by
  intro nnn s
  refine ⟨decode_layoutNNN_call nnn, fun hlt => ?_, fun hfull =>
    halts_of_raiseFatal (exec_call_of_full nnn hfull)⟩
  refine ⟨_, exec_call_of_lt nnn hlt, zext_toNat nnn, rfl, ?_, ?_⟩
  · exact (stackEntry_set s _ hlt s.pc ⟨s.sp.val + 1, by omega⟩ s.sp.val).trans (if_pos rfl)
  · exact ((unchanged_setEntry s _ hlt s.pc _).mono fun _ => .inr).trans
      ((unchanged_setPc _ _).mono fun _ => .inl)

/-- Settles O14: both meanings are `skipIf` of the comparison. -/
theorem immediateSkipsCompareEquality : Obligations.ImmediateSkipsCompareEquality :=
  fun x kk _ =>
    ⟨⟨decode_layoutXKK_seImm x kk, skips_of_skipIf rfl beq_iff_eq beq_eq_false_iff_ne⟩,
     ⟨decode_layoutXKK_sneImm x kk, skips_of_skipIf rfl bne_iff_ne bne_eq_false_iff_eq⟩⟩

/-- Settles O15: both meanings are `skipIf` of the comparison, and the decoder checks the last nibble. -/
theorem registerSkipsCompareEquality : Obligations.RegisterSkipsCompareEquality := by
  intro x y n s
  refine ⟨⟨decode_layoutXYN_family5 x y 0, fun hn => ?_, ?_⟩,
    ⟨decode_layoutXYN_family9 x y 0, fun hn => ?_, ?_⟩⟩
  · exact ⟨_, (decode_layoutXYN_family5 x y n).trans (if_neg hn)⟩
  · exact skips_of_skipIf rfl beq_iff_eq beq_eq_false_iff_ne
  · exact ⟨_, (decode_layoutXYN_family9 x y n).trans (if_neg hn)⟩
  · exact skips_of_skipIf rfl bne_iff_ne bne_eq_false_iff_eq

end Sys2Proof.Machine
end

section
/-! What decoding gives on the words of the loads, the arithmetic and the logic (30_encoding.md R104). -/

namespace Sys2Proof

theorem decode_layoutXKK_ldImm (x : Nibble) (kk : Byte) :
    decode (layoutXKK 0x6 x kk) = .ok (.ldImm x kk) := by
  simp [decode]

theorem decode_layoutXKK_addImm (x : Nibble) (kk : Byte) :
    decode (layoutXKK 0x7 x kk) = .ok (.addImm x kk) := by
  simp [decode]

/-- Family 8: the last nibble selects the operation. -/
theorem decode_layoutXYN_family8 (x y n : Nibble) :
    decode (layoutXYN 0x8 x y n) = decode8 (layoutXYN 0x8 x y n) := by
  simp [decode]

theorem decode_layoutXYN_ldReg (x y : Nibble) : decode (layoutXYN 0x8 x y 0x0) = .ok (.ldReg x y) := by
  rw [decode_layoutXYN_family8]
  simp [decode8]

theorem decode_layoutXYN_orReg (x y : Nibble) : decode (layoutXYN 0x8 x y 0x1) = .ok (.orReg x y) := by
  rw [decode_layoutXYN_family8]
  simp [decode8]

theorem decode_layoutXYN_andReg (x y : Nibble) : decode (layoutXYN 0x8 x y 0x2) = .ok (.andReg x y) := by
  rw [decode_layoutXYN_family8]
  simp [decode8]

theorem decode_layoutXYN_xorReg (x y : Nibble) : decode (layoutXYN 0x8 x y 0x3) = .ok (.xorReg x y) := by
  rw [decode_layoutXYN_family8]
  simp [decode8]

theorem decode_layoutXYN_addReg (x y : Nibble) : decode (layoutXYN 0x8 x y 0x4) = .ok (.addReg x y) := by
  rw [decode_layoutXYN_family8]
  simp [decode8]

theorem decode_layoutXYN_sub (x y : Nibble) : decode (layoutXYN 0x8 x y 0x5) = .ok (.sub x y) := by
  rw [decode_layoutXYN_family8]
  simp [decode8]

theorem decode_layoutXYN_subn (x y : Nibble) : decode (layoutXYN 0x8 x y 0x7) = .ok (.subn x y) := by
  rw [decode_layoutXYN_family8]
  simp [decode8]

end Sys2Proof
end

section
/-! The register instructions (42_alu.md): one rule for those that only write `V[x]`, one for those that
also write the flag, and O18 to O22. -/

namespace Sys2Proof.Machine

open Sys2Proof.Safety

/-- The flag of R176 as VF holds it. -/
theorem flagByte_carryFlag_toNat (a b : Byte) :
    (flagByte (carryFlag a b)).toNat = if 255 < a.toNat + b.toNat then 1 else 0 := by
  rw [flagByte_toNat]
  exact if_congr decide_eq_true_iff rfl rfl

/-- The flag of R177 and R179 as VF holds it. -/
theorem flagByte_greaterFlag_toNat (a b : Byte) :
    (flagByte (greaterFlag a b)).toNat = if b.toNat < a.toNat then 1 else 0 := by
  rw [flagByte_toNat]
  exact if_congr decide_eq_true_iff rfl rfl

theorem writeFlagged_getV_same (x : Nibble) (f : Bool) (b : Byte) (s : State) :
    (writeFlagged x f b s).getV x = b :=
  (writeFlagged_getV x f b s x).trans (if_pos rfl)

theorem writeFlagged_getV_vF {x : Nibble} (f : Bool) (b : Byte) (s : State) (hx : x ≠ vF) :
    (writeFlagged x f b s).getV vF = flagByte f := by
  rw [writeFlagged_getV, if_neg hx.symm, if_pos rfl]

/-- An instruction that answers `setV x b` leaves `b` in `V[x]` and changes nothing else; VF is no
exception. -/
theorem writes_of_setV {i : Instr} {s : State} {x : Nibble} {b : Byte}
    (h : exec i s = .next (s.setV x b)) :
    ∃ t, exec i s = .next t ∧ t.getV x = b ∧ UnchangedBut (fun p => p = .v x) s t :=
  ⟨s.setV x b, h, State.setV_getV_same s x b, unchanged_setV s x b⟩

/-- An instruction that answers `writeFlagged x f b` leaves `b` in `V[x]`, the flag in VF unless `x` is VF,
and changes nothing else; `result` and `flag` are the two as numbers. -/
theorem writes_of_writeFlagged {i : Instr} {s : State} {x : Nibble} {f : Bool} {b : Byte}
    {result flag : Nat} (h : exec i s = .next (writeFlagged x f b s)) (hresult : b.toNat = result)
    (hflag : (flagByte f).toNat = flag) :
    ∃ t, exec i s = .next t ∧ (t.getV x).toNat = result ∧ (x ≠ 15 → (t.getV 15).toNat = flag) ∧
      UnchangedBut (fun p => p = .v x ∨ p = .v 15) s t := by
  refine ⟨writeFlagged x f b s, h, ?_, fun hx => ?_, unchanged_writeFlagged x f b s⟩
  · rw [writeFlagged_getV_same, hresult]
  · rw [writeFlagged_getV_vF f b s hx, hflag]

/-! The statements. -/

/-- Settles O18: both meanings are `setV` of the operand. -/
theorem loadsWriteTheDestination : Obligations.LoadsWriteTheDestination :=
  fun x y kk _ =>
    ⟨⟨decode_layoutXKK_ldImm x kk, writes_of_setV rfl⟩, ⟨decode_layoutXYN_ldReg x y, writes_of_setV rfl⟩⟩

/-- Settles O19: the meaning is `setV` of the narrowed sum, so no flag is in its frame. -/
theorem addImmediateWrapsWithoutFlag : Obligations.AddImmediateWrapsWithoutFlag := by
  intro x kk s
  obtain ⟨t, hexec, hvalue, hframe⟩ := writes_of_setV (i := .addImm x kk) (s := s) rfl
  exact ⟨decode_layoutXKK_addImm x kk, t, hexec, by rw [hvalue, wrapSum_toNat], hframe⟩

/-- Settles O20: each meaning is `setV` of a bitwise operation, whose bits the library gives. -/
theorem logicActsBitByBit : Obligations.LogicActsBitByBit := by
  intro x y s
  refine ⟨⟨decode_layoutXYN_orReg x y, ?_⟩, ⟨decode_layoutXYN_andReg x y, ?_⟩,
    ⟨decode_layoutXYN_xorReg x y, ?_⟩⟩
  · obtain ⟨t, hexec, hvalue, hframe⟩ := writes_of_setV (i := .orReg x y) (s := s) rfl
    exact ⟨t, hexec, fun _ => by rw [hvalue, BitVec.getLsbD_or], hframe⟩
  · obtain ⟨t, hexec, hvalue, hframe⟩ := writes_of_setV (i := .andReg x y) (s := s) rfl
    exact ⟨t, hexec, fun _ => by rw [hvalue, BitVec.getLsbD_and], hframe⟩
  · obtain ⟨t, hexec, hvalue, hframe⟩ := writes_of_setV (i := .xorReg x y) (s := s) rfl
    exact ⟨t, hexec, fun _ => by rw [hvalue, BitVec.getLsbD_xor], hframe⟩

/-- Settles O21: the meaning is `writeFlagged` of the carry and the narrowed sum. -/
theorem addRegisterSetsCarry : Obligations.AddRegisterSetsCarry :=
  fun x y _ =>
    ⟨decode_layoutXYN_addReg x y,
     writes_of_writeFlagged rfl (wrapSum_toNat _ _) (flagByte_carryFlag_toNat _ _)⟩

/-- Settles O22: both meanings are `writeFlagged` of the comparison and the difference, the operands of
8xy7 exchanged. -/
theorem subtractionsSetStrictComparison : Obligations.SubtractionsSetStrictComparison :=
  fun x y _ =>
    ⟨⟨decode_layoutXYN_sub x y,
      writes_of_writeFlagged rfl (wrapDiff_toNat _ _) (flagByte_greaterFlag_toNat _ _)⟩,
     ⟨decode_layoutXYN_subn x y,
      writes_of_writeFlagged rfl (wrapDiff_toNat _ _) (flagByte_greaterFlag_toNat _ _)⟩⟩

end Sys2Proof.Machine
end

section
/-! What decoding gives on the words of the index instructions (30_encoding.md R104). -/

namespace Sys2Proof

theorem decode_layoutNNN_ldI (nnn : Addr12) : decode (layoutNNN 0xA nnn) = .ok (.ldI nnn) := by
  simp [decode]

/-- Family F: the low byte selects the operation. -/
theorem decode_layoutXKK_familyF (x : Nibble) (kk : Byte) :
    decode (layoutXKK 0xF x kk) = decodeF (layoutXKK 0xF x kk) := by
  simp [decode]

theorem decode_layoutXKK_addI (x : Nibble) : decode (layoutXKK 0xF x 0x1E) = .ok (.addI x) := by
  rw [decode_layoutXKK_familyF]
  simp [decodeF]

end Sys2Proof
end

section
/-! The index register (43_index_memory.md R200, R201): one rule for the instructions that only write `I`,
and O26. -/

namespace Sys2Proof.Machine

open Sys2Proof.Safety

theorem zextByte_toNat (b : Byte) : (zextByte b).toNat = b.toNat :=
  BitVec.toNat_setWidth_of_le (by decide)

/-- The sum of R201, modulo 65536. -/
theorem add_zextByte_toNat (w : Word16) (b : Byte) :
    (w + zextByte b).toNat = (w.toNat + b.toNat) % 65536 := by
  rw [BitVec.toNat_add, zextByte_toNat]

/-- An instruction that answers `setI w` leaves `w` in `I` and changes nothing else; `value` is `w` as a
number. -/
theorem indexes_of_setI {i : Instr} {s : State} {w : Word16} {value : Nat}
    (h : exec i s = .next (s.setI w)) (hvalue : w.toNat = value) :
    ∃ t, exec i s = .next t ∧ t.i.toNat = value ∧ UnchangedBut (fun p => p = .i) s t :=
  ⟨s.setI w, h, hvalue, unchanged_setI s w⟩

/-- Settles O26: both meanings are `setI`, of the zero-extended address and of the 16-bit sum, so no flag
is in their frame. -/
theorem indexIsLoadedAndWraps : Obligations.IndexIsLoadedAndWraps :=
  fun nnn x s =>
    ⟨⟨decode_layoutNNN_ldI nnn, indexes_of_setI rfl (zext_toNat nnn)⟩,
     ⟨decode_layoutXKK_addI x, indexes_of_setI rfl (add_zextByte_toNat s.i (s.getV x))⟩⟩

end Sys2Proof.Machine
end

section
/-! What decoding gives on the words of the timer instructions (30_encoding.md R104). -/

namespace Sys2Proof

theorem decode_layoutXKK_ldVxDt (x : Nibble) : decode (layoutXKK 0xF x 0x07) = .ok (.ldVxDt x) := by
  rw [decode_layoutXKK_familyF]
  simp [decodeF]

theorem decode_layoutXKK_ldDtVx (x : Nibble) : decode (layoutXKK 0xF x 0x15) = .ok (.ldDtVx x) := by
  rw [decode_layoutXKK_familyF]
  simp [decodeF]

theorem decode_layoutXKK_ldStVx (x : Nibble) : decode (layoutXKK 0xF x 0x18) = .ok (.ldStVx x) := by
  rw [decode_layoutXKK_familyF]
  simp [decodeF]

end Sys2Proof
end

section
/-! The timer registers (45_keys_timers.md R242, R244, R245). -/

namespace Sys2Proof.Machine

open Sys2Proof.Safety

/-- Settles O35: the read is `setV` of `DT`, so `DT` stands in its frame; the writes are `setDt` and `setSt`
of `V[x]`. -/
theorem timersAreReadAndWritten : Obligations.TimersAreReadAndWritten :=
  fun x s =>
    ⟨⟨decode_layoutXKK_ldVxDt x, writes_of_setV rfl⟩,
     ⟨decode_layoutXKK_ldDtVx x, s.setDt (s.getV x), rfl, State.setDt_dt s _, unchanged_setDt s _⟩,
     ⟨decode_layoutXKK_ldStVx x, s.setSt (s.getV x), rfl, State.setSt_st s _, unchanged_setSt s _⟩⟩

end Sys2Proof.Machine
end

section
/-! The configuration is constant (10_state.md R49): no step writes it. -/

namespace Sys2Proof.Machine

open Sys2Proof.Safety

theorem writeBytes_config (a : Nat) (bs : List Byte) (s : State) : (writeBytes a bs s).config = s.config := by
  rw [writeBytes_eq]

theorem invalidInstruction_config (p w : Word16) (s : State) :
    (invalidInstruction p w s).config = s.config := by
  rw [invalidInstruction_eq]

theorem afterInstr_config (s : State) : (afterInstr s).config = s.config := by
  unfold afterInstr
  split
  · exact completeCycle_config s
  · rfl

theorem cycle_config {s t : State} (h : cycle s = .next t) : t.config = s.config := by
  obtain ⟨-, rfl⟩ | ⟨-, -, rfl⟩ | ⟨-, -, w, -, ⟨e, -, rfl⟩ | ⟨i, u, -, hexec, rfl⟩⟩ := cycle_cases h
  · rfl
  · rfl
  · rw [completeCycle_config, invalidInstruction_config]
    rfl
  · obtain ⟨-, -, -, -, -, hconfig, -⟩ := exec_sameFrame hexec
    rw [afterInstr_config, hconfig]
    rfl

theorem waitStep_config {s t : State} (h : waitStep s = .next t) : t.config = s.config := by
  obtain ⟨-, rfl⟩ | ⟨-, -, rfl⟩ | ⟨-, -, rfl⟩ := waitStep_cases h
  · rfl
  · rfl
  · rw [completeCycle_config]
    rfl

theorem coreStep_config {s t : State} (h : coreStep s = .next t) : t.config = s.config := by
  obtain ⟨-, hcycle⟩ | ⟨-, hwait⟩ := coreStep_cases h
  · exact cycle_config hcycle
  · exact waitStep_config hwait

theorem envStep_config {e : EnvStep} {s t : State} (h : envStep e s = .next t) : t.config = s.config := by
  obtain ⟨k, -, rfl⟩ | ⟨k, -, rfl⟩ | ⟨-, rfl⟩ | ⟨rom, -, -, rfl⟩ | ⟨-, rfl⟩ := envStep_cases h
  · rfl
  · rfl
  · rfl
  · exact writeBytes_config _ _ _
  · rfl

/-- `DIAG` and `FONT` are as before after every step, the host's `Reset` included (log 13). -/
theorem step_config {s t : State} (h : step s = .next t) : t.config = s.config := by
  obtain ⟨s', ⟨-, rfl⟩ | ⟨rest, -, rfl⟩, hcore⟩ | ⟨e, rest, -, henv⟩ := step_cases h
  · exact coreStep_config hcore
  · exact (coreStep_config hcore :)
  · exact (envStep_config henv :)

end Sys2Proof.Machine
end

section
/-! A change of `DIAG` passes through every operation of the core unseen, but for the report of an invalid
word (60_exceptions.md R279). -/

namespace Sys2Proof.Machine

/-- The state with another setting of `DIAG`. -/
def State.withDiag (d : Bool) (s : State) : State := { s with config := { s.config with diag := d } }

/-! Memory: what an unlisted address reads as depends on `FONT` alone. -/

theorem Memory.read_diag (c : Config) (d : Bool) (m : Memory) (a : Nat) :
    Memory.read { c with diag := d } m a = Memory.read c m a := by
  induction m with
  | nil => rfl
  | cons cell m ih => rw [Memory.read, Memory.read, ih]

@[simp] theorem State.withDiag_peek (d : Bool) (s : State) (a : Nat) : (s.withDiag d).peek a = s.peek a :=
  Memory.read_diag s.config d s.mem a

theorem readBytes_withDiag (d : Bool) (s : State) (a n : Nat) :
    readBytes (s.withDiag d) a n = readBytes s a n := by
  induction n generalizing a with
  | zero => rfl
  | succ n ih => rw [readBytes, readBytes, ih, State.withDiag_peek]

theorem writeBytes_withDiag (d : Bool) (a : Nat) (bs : List Byte) (s : State) :
    writeBytes a bs (s.withDiag d) = (writeBytes a bs s).withDiag d := by
  induction bs generalizing a s with
  | nil => rfl
  | cons b bs ih => exact ih (a + 1) (s.poke a b)

theorem loadRegisters_withDiag (d : Bool) (base n : Nat) (s : State) :
    loadRegisters base n (s.withDiag d) = (loadRegisters base n s).withDiag d := by
  induction n with
  | zero => rfl
  | succ n ih => rw [loadRegisters, loadRegisters, ih, State.withDiag_peek]; rfl

theorem fetch_withDiag (d : Bool) (s : State) : fetch (s.withDiag d) = fetch s := by
  by_cases hpc : s.pc.toNat + 1 < 4096
  · rw [fetch_inside s hpc, fetch_inside (s.withDiag d) hpc, State.withDiag_peek, State.withDiag_peek]
    rfl
  · rw [fetch_outside s hpc, fetch_outside (s.withDiag d) hpc]
    rfl

/-! Instructions. -/

theorem skipIf_withDiag (d c : Bool) (s : State) : skipIf c (s.withDiag d) = (skipIf c s).withDiag d := by
  cases c <;> rfl

/-- No instruction's meaning reads `DIAG`. -/
theorem exec_withDiag (d : Bool) {i : Instr} {s t : State} (h : exec i s = .next t) :
    exec i (s.withDiag d) = .next (t.withDiag d) := by
  cases i with
  | ret =>
    cases (execRet_eq s).symm.trans h
    refine (execRet_eq _).trans (congrArg _ ?_)
    rw [apply_ite (State.withDiag d)]
    rfl
  | call nnn =>
    cases (execCall_eq nnn s).symm.trans h
    refine (execCall_eq nnn _).trans (congrArg _ ?_)
    rw [apply_dite (State.withDiag d)]
    rfl
  | drw x y n =>
    cases (execDrw_eq x y n s).symm.trans h
    refine (execDrw_eq x y n _).trans (congrArg _ ?_)
    rw [apply_ite (State.withDiag d), readBytes_withDiag]
    rfl
  | ldB x =>
    cases (execLdB_eq x s).symm.trans h
    refine (execLdB_eq x _).trans (congrArg _ ?_)
    rw [apply_ite (State.withDiag d), writeBytes_withDiag]
    rfl
  | stRegs x =>
    cases (execStRegs_eq x s).symm.trans h
    refine (execStRegs_eq x _).trans (congrArg _ ?_)
    rw [apply_ite (State.withDiag d), writeBytes_withDiag]
    rfl
  | ldRegs x =>
    cases (execLdRegs_eq x s).symm.trans h
    refine (execLdRegs_eq x _).trans (congrArg _ ?_)
    rw [apply_ite (State.withDiag d), loadRegisters_withDiag]
    rfl
  | ldVxK x =>
    cases (execLdVxK_eq x s).symm.trans h
    refine (execLdVxK_eq x _).trans (congrArg _ ?_)
    rw [apply_ite (State.withDiag d)]
    rfl
  | seImm x kk | sneImm x kk | seReg x y | sneReg x y | skp x | sknp x =>
    cases h
    exact congrArg _ (skipIf_withDiag d _ s)
  | _ => cases h; rfl

/-! Host steps. -/

theorem resetWith_withDiag (d : Bool) (rom : List Byte) (s : State) :
    resetWith rom (s.withDiag d) = (resetWith rom s).withDiag d :=
  writeBytes_withDiag d Config.entry rom
    { State.reset with config := s.config, draws := s.draws, outbox := s.outbox, schedule := s.schedule }

theorem envStep_withDiag (d : Bool) {e : EnvStep} {s t : State} (h : envStep e s = .next t) :
    envStep e (s.withDiag d) = .next (t.withDiag d) := by
  obtain ⟨k, rfl, rfl⟩ | ⟨k, rfl, rfl⟩ | ⟨rfl, rfl⟩ | ⟨rom, rfl, hlen, rfl⟩ | ⟨rfl, rfl⟩ := envStep_cases h
  · rfl
  · rfl
  · rfl
  · exact (if_pos hlen).trans (congrArg _ (resetWith_withDiag d rom s))
  · rfl

end Sys2Proof.Machine
end

section
/-! Two runs that differ in `DIAG`: the relation that one step keeps, and O54. -/

namespace Sys2Proof.Machine

open Sys2Proof.Safety

/-- `u` is `t` but for the setting `d` of `DIAG` and for the reports of invalid words in the outbox. -/
def DiagTwin (d : Bool) (t u : State) : Prop :=
  ∃ events, events.filter (!isInvalidReport ·) = t.outbox.filter (!isInvalidReport ·) ∧
    u = { t.withDiag d with outbox := events }

theorem diagTwin_withDiag (d : Bool) (t : State) : DiagTwin d t (t.withDiag d) := ⟨t.outbox, rfl, rfl⟩

/-- The recoverable exception adds nothing to the outbox but the report of an invalid word. -/
theorem invalidInstruction_otherEvents (p w : Word16) (s : State) :
    (invalidInstruction p w s).outbox.filter (!isInvalidReport ·) =
      s.outbox.filter (!isInvalidReport ·) := by
  unfold invalidInstruction
  split
  · simp [isInvalidReport]
  · rfl

/-- The one operation that reads `DIAG`. -/
theorem diagTwin_invalidInstruction (d : Bool) (p w : Word16) (s : State) :
    DiagTwin d (invalidInstruction p w s) (invalidInstruction p w (s.withDiag d)) := by
  refine ⟨(invalidInstruction p w (s.withDiag d)).outbox, ?_, ?_⟩
  · rw [invalidInstruction_otherEvents, invalidInstruction_otherEvents]
    rfl
  · rw [invalidInstruction_eq p w s]
    exact invalidInstruction_eq p w (s.withDiag d)

/-- The paint check adds the same event to both outboxes. -/
theorem DiagTwin.paintCheck {d : Bool} {t u : State} (h : DiagTwin d t u) :
    DiagTwin d (paintCheck t) (paintCheck u) := by
  obtain ⟨events, hevents, rfl⟩ := h
  cases hdirty : t.dirty with
  | false =>
    refine ⟨events, ?_, ?_⟩ <;> simp [Machine.paintCheck, State.withDiag, hdirty, hevents]
  | true =>
    refine ⟨events ++ [.paint (litPixels t.fb) Config.fbW Config.fbH], ?_, ?_⟩ <;>
      simp [Machine.paintCheck, State.withDiag, hdirty, hevents]

theorem DiagTwin.completeCycle {d : Bool} {t u : State} (h : DiagTwin d t u) :
    DiagTwin d (completeCycle t) (completeCycle u) := by
  obtain ⟨events, hevents, rfl⟩ := h
  have hcyc := t.cyc.isLt
  by_cases hcount : t.cyc.val < 9
  · rw [completeCycle_count t hcount]
    exact ⟨events, hevents, completeCycle_count { t.withDiag d with outbox := events } hcount⟩
  · have htick : t.cyc.val = 9 := by omega
    rw [completeCycle_tick t htick, completeCycle_tick { t.withDiag d with outbox := events } htick]
    exact DiagTwin.paintCheck ⟨events, hevents, rfl⟩

theorem diagTwin_afterInstr (d : Bool) (t : State) :
    DiagTwin d (afterInstr t) (afterInstr (t.withDiag d)) := by
  by_cases hrun : t.run = .running
  · rw [afterInstr, afterInstr, if_pos hrun, if_pos (show (t.withDiag d).run = .running from hrun)]
    exact (diagTwin_withDiag d t).completeCycle
  · rw [afterInstr, afterInstr, if_neg hrun, if_neg (show (t.withDiag d).run ≠ .running from hrun)]
    exact diagTwin_withDiag d t

/-- The rest of a cycle, in its two cases: an invalid word and an instruction. -/
theorem runWord_withDiag (d : Bool) {w : Word16} {s t : State} (h : runWord w s = .next t) :
    ∃ u, runWord w (s.withDiag d) = .next u ∧ DiagTwin d t u := by
  unfold runWord at h ⊢
  cases hdecode : decode w with
  | error e =>
    simp only [hdecode] at h
    cases h
    exact ⟨_, rfl, (diagTwin_invalidInstruction d _ w s).completeCycle⟩
  | ok i =>
    simp only [hdecode] at h
    obtain ⟨u, hexec, rfl⟩ := finishCycle_next h
    simp only [exec_withDiag d hexec]
    exact ⟨_, rfl, diagTwin_afterInstr d u⟩

theorem cycle_withDiag (d : Bool) {s t : State} (h : cycle s = .next t) :
    ∃ u, cycle (s.withDiag d) = .next u ∧ DiagTwin d t u := by
  by_cases hstop : s.stopReq = true
  · have hstop' : (s.withDiag d).stopReq = true := hstop
    rw [cycle, if_pos hstop] at h
    rw [cycle, if_pos hstop']
    cases h
    exact ⟨_, rfl, diagTwin_withDiag d _⟩
  · have hstop' : ¬ (s.withDiag d).stopReq = true := hstop
    rw [cycle, if_neg hstop] at h
    rw [cycle, if_neg hstop', fetch_withDiag]
    cases hfetch : fetch s with
    | error a =>
      rw [hfetch] at h
      cases h
      exact ⟨_, rfl, diagTwin_withDiag d _⟩
    | ok w =>
      rw [hfetch] at h
      exact runWord_withDiag d h

theorem waitStep_withDiag (d : Bool) {s t : State} (h : waitStep s = .next t) :
    ∃ u, waitStep (s.withDiag d) = .next u ∧ DiagTwin d t u := by
  obtain ⟨hstop, rfl⟩ | ⟨hstop, hheld, rfl⟩ | ⟨hstop, hheld, rfl⟩ := waitStep_cases h
  · exact ⟨_, if_pos hstop, diagTwin_withDiag d _⟩
  · exact ⟨_, (if_neg (Bool.eq_false_iff.mp hstop)).trans (if_pos hheld), diagTwin_withDiag d _⟩
  · exact ⟨_, (if_neg (Bool.eq_false_iff.mp hstop)).trans (if_neg hheld),
      (diagTwin_withDiag d ((s.setV (fieldX s.ir) (s.lastKey.setWidth 8)).setRun .running)).completeCycle⟩

theorem coreStep_withDiag (d : Bool) {s t : State} (h : coreStep s = .next t) :
    ∃ u, coreStep (s.withDiag d) = .next u ∧ DiagTwin d t u := by
  obtain ⟨hrun, hcycle⟩ | ⟨hrun, hwait⟩ := coreStep_cases h
  · have heq : coreStep (s.withDiag d) = cycle (s.withDiag d) := by
      rw [coreStep, show (s.withDiag d).run = .running from hrun]
    rw [heq]
    exact cycle_withDiag d hcycle
  · have heq : coreStep (s.withDiag d) = waitStep (s.withDiag d) := by
      rw [coreStep, show (s.withDiag d).run = .waitKey from hrun]
    rw [heq]
    exact waitStep_withDiag d hwait

theorem coreDue_withDiag (d : Bool) {s s' : State} (h : CoreDue s s') :
    CoreDue (s.withDiag d) (s'.withDiag d) := by
  obtain ⟨hs, rfl⟩ | ⟨rest, hs, rfl⟩ := h
  · exact .inl ⟨hs, rfl⟩
  · exact .inr ⟨rest, hs, rfl⟩

theorem step_withDiag (d : Bool) {s t : State} (h : step s = .next t) :
    ∃ u, step (s.withDiag d) = .next u ∧ DiagTwin d t u := by
  obtain ⟨s', hdue, hcore⟩ | ⟨e, rest, hs, henv⟩ := step_cases h
  · rw [step_of_coreDue (coreDue_withDiag d hdue)]
    exact coreStep_withDiag d hcore
  · rw [step_of_hostDue (s := s.withDiag d) hs]
    exact ⟨_, envStep_withDiag d henv, diagTwin_withDiag d t⟩

/-- Settles O54: no step writes the configuration, and the step from the state with another `DIAG` answers
a twin, by the one branch of a cycle that reads `DIAG`. -/
theorem diagnosticsChangeNoTransition : Obligations.DiagnosticsChangeNoTransition := by
  intro s t d h
  obtain ⟨u, hstep, events, hevents, rfl⟩ := step_withDiag d h
  exact ⟨step_config h, events, hevents, hstep⟩

end Sys2Proof.Machine
end

section
/-! What decoding gives on the words of the remaining rows (30_encoding.md R104), by layout, and O1: the
decoder inverts the encoder. -/

namespace Sys2Proof

theorem decode_layoutNNN_jpV0 (nnn : Addr12) : decode (layoutNNN 0xB nnn) = .ok (.jpV0 nnn) := by
  simp [decode]

theorem decode_layoutXKK_rnd (x : Nibble) (kk : Byte) : decode (layoutXKK 0xC x kk) = .ok (.rnd x kk) := by
  simp [decode]

theorem decode_layoutXYN_drw (x y n : Nibble) : decode (layoutXYN 0xD x y n) = .ok (.drw x y n) := by
  simp [decode]

theorem decode_layoutXYN_shr (x y : Nibble) : decode (layoutXYN 0x8 x y 0x6) = .ok (.shr x y) := by
  rw [decode_layoutXYN_family8]
  simp [decode8]

theorem decode_layoutXYN_shl (x y : Nibble) : decode (layoutXYN 0x8 x y 0xE) = .ok (.shl x y) := by
  rw [decode_layoutXYN_family8]
  simp [decode8]

/-- Family E: the low byte selects the operation. -/
theorem decode_layoutXKK_familyE (x : Nibble) (kk : Byte) :
    decode (layoutXKK 0xE x kk) = decodeE (layoutXKK 0xE x kk) := by
  simp [decode]

theorem decode_layoutXKK_skp (x : Nibble) : decode (layoutXKK 0xE x 0x9E) = .ok (.skp x) := by
  rw [decode_layoutXKK_familyE]
  simp [decodeE]

theorem decode_layoutXKK_sknp (x : Nibble) : decode (layoutXKK 0xE x 0xA1) = .ok (.sknp x) := by
  rw [decode_layoutXKK_familyE]
  simp [decodeE]

theorem decode_layoutXKK_ldVxK (x : Nibble) : decode (layoutXKK 0xF x 0x0A) = .ok (.ldVxK x) := by
  rw [decode_layoutXKK_familyF]
  simp [decodeF]

theorem decode_layoutXKK_ldF (x : Nibble) : decode (layoutXKK 0xF x 0x29) = .ok (.ldF x) := by
  rw [decode_layoutXKK_familyF]
  simp [decodeF]

theorem decode_layoutXKK_ldB (x : Nibble) : decode (layoutXKK 0xF x 0x33) = .ok (.ldB x) := by
  rw [decode_layoutXKK_familyF]
  simp [decodeF]

theorem decode_layoutXKK_stRegs (x : Nibble) : decode (layoutXKK 0xF x 0x55) = .ok (.stRegs x) := by
  rw [decode_layoutXKK_familyF]
  simp [decodeF]

theorem decode_layoutXKK_ldRegs (x : Nibble) : decode (layoutXKK 0xF x 0x65) = .ok (.ldRegs x) := by
  rw [decode_layoutXKK_familyF]
  simp [decodeF]

/-- Settles O1, row by row: each instruction's word has a layout whose fields the decoder reads back. -/
theorem encodedInstructionDecodesBack : Obligations.EncodedInstructionDecodesBack := by
  intro i hwf
  cases i with
  | cls => decide
  | ret => decide
  | sys nnn =>
    obtain ⟨hcls, hret⟩ : nnn ≠ 0x0E0 ∧ nnn ≠ 0x0EE := by simpa [WellFormed] using hwf
    exact decode_layoutNNN_sys hcls hret
  | jp nnn => exact decode_layoutNNN_jp nnn
  | call nnn => exact decode_layoutNNN_call nnn
  | seImm x kk => exact decode_layoutXKK_seImm x kk
  | sneImm x kk => exact decode_layoutXKK_sneImm x kk
  | seReg x y => exact decode_layoutXYN_family5 x y 0
  | ldImm x kk => exact decode_layoutXKK_ldImm x kk
  | addImm x kk => exact decode_layoutXKK_addImm x kk
  | ldReg x y => exact decode_layoutXYN_ldReg x y
  | orReg x y => exact decode_layoutXYN_orReg x y
  | andReg x y => exact decode_layoutXYN_andReg x y
  | xorReg x y => exact decode_layoutXYN_xorReg x y
  | addReg x y => exact decode_layoutXYN_addReg x y
  | sub x y => exact decode_layoutXYN_sub x y
  | shr x y => exact decode_layoutXYN_shr x y
  | subn x y => exact decode_layoutXYN_subn x y
  | shl x y => exact decode_layoutXYN_shl x y
  | sneReg x y => exact decode_layoutXYN_family9 x y 0
  | ldI nnn => exact decode_layoutNNN_ldI nnn
  | jpV0 nnn => exact decode_layoutNNN_jpV0 nnn
  | rnd x kk => exact decode_layoutXKK_rnd x kk
  | drw x y n => exact decode_layoutXYN_drw x y n
  | skp x => exact decode_layoutXKK_skp x
  | sknp x => exact decode_layoutXKK_sknp x
  | ldVxDt x => exact decode_layoutXKK_ldVxDt x
  | ldVxK x => exact decode_layoutXKK_ldVxK x
  | ldDtVx x => exact decode_layoutXKK_ldDtVx x
  | ldStVx x => exact decode_layoutXKK_ldStVx x
  | addI x => exact decode_layoutXKK_addI x
  | ldF x => exact decode_layoutXKK_ldF x
  | ldB x => exact decode_layoutXKK_ldB x
  | stRegs x => exact decode_layoutXKK_stRegs x
  | ldRegs x => exact decode_layoutXKK_ldRegs x

/-- Settles O5, by evaluation. -/
theorem sampleWordsDecodeAsThePatternsSay : Obligations.SampleWordsDecodeAsThePatternsSay := by
  unfold Obligations.SampleWordsDecodeAsThePatternsSay
  decide

end Sys2Proof
end

section
/-! The encoder inverts the decoder (30_encoding.md R101 to R105): a word is put together from its fields, so
an instruction decoded from them has that word. -/

namespace Sys2Proof

theorem layoutNNN_fields (w : Word16) : layoutNNN (fieldFamily w) (fieldNNN w) = w :=
  (BitVec.extractLsb'_append_extractLsb'_eq_extractLsb' rfl).trans BitVec.extractLsb'_eq_self

theorem fieldX_append_fieldKK (w : Word16) : fieldX w ++ fieldKK w = fieldNNN w :=
  BitVec.extractLsb'_append_extractLsb'_eq_extractLsb' rfl

theorem fieldY_append_fieldN (w : Word16) : fieldY w ++ fieldN w = fieldKK w :=
  BitVec.extractLsb'_append_extractLsb'_eq_extractLsb' rfl

/-! A word from its family and the fields that its row names. -/

section
variable {w : Word16} {f : Nibble}

theorem layoutNNN_of_family (hf : (fieldFamily w).toNat = f.toNat) : layoutNNN f (fieldNNN w) = w := by
  rw [← BitVec.eq_of_toNat_eq hf, layoutNNN_fields]

theorem layoutXKK_of_family (hf : (fieldFamily w).toNat = f.toNat) :
    layoutXKK f (fieldX w) (fieldKK w) = w := by
  rw [layoutXKK, fieldX_append_fieldKK]
  exact layoutNNN_of_family hf

theorem layoutXYN_of_family (hf : (fieldFamily w).toNat = f.toNat) :
    layoutXYN f (fieldX w) (fieldY w) (fieldN w) = w := by
  rw [layoutXYN, fieldY_append_fieldN]
  exact layoutXKK_of_family hf

theorem layoutXKK_of_kk {kk : Byte} (hf : (fieldFamily w).toNat = f.toNat)
    (hkk : (fieldKK w).toNat = kk.toNat) : layoutXKK f (fieldX w) kk = w := by
  rw [← BitVec.eq_of_toNat_eq hkk, layoutXKK_of_family hf]

theorem layoutXYN_of_n {n : Nibble} (hf : (fieldFamily w).toNat = f.toNat)
    (hn : (fieldN w).toNat = n.toNat) : layoutXYN f (fieldX w) (fieldY w) n = w := by
  rw [← BitVec.eq_of_toNat_eq hn, layoutXYN_of_family hf]

end

/-! Each family's decoder, inverted. -/

section
variable {w : Word16} {i : Instr}

theorem encode_decode0 (hf : (fieldFamily w).toNat = 0x0) :
    WellFormed (decode0 w) = true ∧ encode (decode0 w) = w := by
  have hw : layoutNNN 0x0 (fieldNNN w) = w := layoutNNN_of_family hf
  unfold decode0
  split_ifs with hcls hret
  · exact ⟨rfl, hcls.symm⟩
  · exact ⟨rfl, hret.symm⟩
  · refine ⟨?_, hw⟩
    have hneCls : fieldNNN w ≠ 0x0E0 := fun e => hcls (by rw [← hw, e]; rfl)
    have hneRet : fieldNNN w ≠ 0x0EE := fun e => hret (by rw [← hw, e]; rfl)
    simpa [WellFormed] using And.intro hneCls hneRet

theorem encode_of_decode8 (hf : (fieldFamily w).toNat = 0x8) (h : decode8 w = .ok i) :
    WellFormed i = true ∧ encode i = w := by
  unfold decode8 at h
  split at h <;> cases h <;> exact ⟨rfl, layoutXYN_of_n hf ‹_›⟩

theorem encode_of_decodeE (hf : (fieldFamily w).toNat = 0xE) (h : decodeE w = .ok i) :
    WellFormed i = true ∧ encode i = w := by
  unfold decodeE at h
  split at h <;> cases h <;> exact ⟨rfl, layoutXKK_of_kk hf ‹_›⟩

theorem encode_of_decodeF (hf : (fieldFamily w).toNat = 0xF) (h : decodeF w = .ok i) :
    WellFormed i = true ∧ encode i = w := by
  unfold decodeF at h
  split at h <;> cases h <;> exact ⟨rfl, layoutXKK_of_kk hf ‹_›⟩

/-- Settles O2, by the arms of the decode procedure: the fields that an arm reads put the word together. -/
theorem decodedWordEncodesBack : Obligations.DecodedWordEncodesBack := by
  intro w i h
  unfold decode at h
  split at h
  case h_1 hf => cases h; exact encode_decode0 hf
  case h_2 hf => cases h; exact ⟨rfl, layoutNNN_of_family hf⟩
  case h_3 hf => cases h; exact ⟨rfl, layoutNNN_of_family hf⟩
  case h_4 hf => cases h; exact ⟨rfl, layoutXKK_of_family hf⟩
  case h_5 hf => cases h; exact ⟨rfl, layoutXKK_of_family hf⟩
  case h_6 hf =>
    split_ifs at h with hn
    cases h
    exact ⟨rfl, layoutXYN_of_n hf (congrArg BitVec.toNat hn)⟩
  case h_7 hf => cases h; exact ⟨rfl, layoutXKK_of_family hf⟩
  case h_8 hf => cases h; exact ⟨rfl, layoutXKK_of_family hf⟩
  case h_9 hf => exact encode_of_decode8 hf h
  case h_10 hf =>
    split_ifs at h with hn
    cases h
    exact ⟨rfl, layoutXYN_of_n hf (congrArg BitVec.toNat hn)⟩
  case h_11 hf => cases h; exact ⟨rfl, layoutNNN_of_family hf⟩
  case h_12 hf => cases h; exact ⟨rfl, layoutNNN_of_family hf⟩
  case h_13 hf => cases h; exact ⟨rfl, layoutXKK_of_family hf⟩
  case h_14 hf => cases h; exact ⟨rfl, layoutXYN_of_family hf⟩
  case h_15 hf => exact encode_of_decodeE hf h
  case h_16 => exact encode_of_decodeF (by have := (fieldFamily w).isLt; grind) h

end

end Sys2Proof
end

section
/-! The words that decoding refuses (30_encoding.md R106). -/

namespace Sys2Proof

/-! The fields as numbers. -/

theorem fieldFamily_toNat (w : Word16) : (fieldFamily w).toNat = w.toNat / 4096 := by
  have hlt := w.isLt
  rw [fieldFamily, BitVec.extractLsb'_toNat, Nat.shiftRight_eq_div_pow]
  omega

theorem fieldN_toNat (w : Word16) : (fieldN w).toNat = w.toNat % 16 :=
  BitVec.extractLsb'_toNat 0 4 w

theorem fieldKK_toNat (w : Word16) : (fieldKK w).toNat = w.toNat % 256 :=
  BitVec.extractLsb'_toNat 0 8 w

/-! What each family's decoder refuses. -/

theorem decode8_refuses_iff (w : Word16) :
    (∃ e, decode8 w = .error e) ↔ (fieldN w).toNat ∈ [8, 9, 10, 11, 12, 13, 15] := by
  have hlt := (fieldN w).isLt
  unfold decode8
  split
  case h_10 => grind
  all_goals simp [*]

theorem decodeE_refuses_iff (w : Word16) :
    (∃ e, decodeE w = .error e) ↔ (fieldKK w).toNat ∉ [0x9E, 0xA1] := by
  unfold decodeE
  split <;> simp_all

theorem decodeF_refuses_iff (w : Word16) :
    (∃ e, decodeF w = .error e) ↔
      (fieldKK w).toNat ∉ [0x07, 0x0A, 0x15, 0x18, 0x1E, 0x29, 0x33, 0x55, 0x65] := by
  unfold decodeF
  split <;> simp_all

theorem fieldN_check_refuses_iff (w : Word16) (i : Instr) (refusal : DecodeError) :
    (∃ e, (if fieldN w = 0 then .ok i else .error refusal : Except DecodeError Instr) = .error e) ↔
      (fieldN w).toNat ≠ 0 := by
  split_ifs with hn
  · simp [hn]
  · exact ⟨fun _ hzero => hn (BitVec.eq_of_toNat_eq hzero), fun _ => ⟨refusal, rfl⟩⟩

/-- Settles O4, by the arms of the decode procedure: only five families check a field. -/
theorem invalidWordsAreThoseListed : Obligations.InvalidWordsAreThoseListed := by
  intro w
  dsimp only
  rw [← fieldFamily_toNat, ← fieldN_toNat, ← fieldKK_toNat]
  unfold decode
  split
  case h_6 hf => rw [fieldN_check_refuses_iff]; simp [hf]
  case h_9 hf => rw [decode8_refuses_iff]; simp [hf]
  case h_10 hf => rw [fieldN_check_refuses_iff]; simp [hf]
  case h_15 hf => rw [decodeE_refuses_iff]; simp [hf]
  case h_16 =>
    have hf : (fieldFamily w).toNat = 0xF := by
      have hlt := (fieldFamily w).isLt
      grind
    rw [decodeF_refuses_iff]
    simp [hf]
  all_goals simp [*]

end Sys2Proof
end

section
/-! The opcode map of R105 read by fields: a row selects words of its own family only, and within the family
by the field that its mask keeps. -/

namespace Sys2Proof

/-- The rows whose pattern is of family `f`, in the map's order. -/
def familyRows (f : Nibble) : List OpcodeRow := opcodeMap.filter (fun row => fieldFamily row.pattern == f)

/-- Every mask keeps the family. -/
theorem fieldFamily_mask : ∀ row ∈ opcodeMap, fieldFamily row.mask = 0xF := by decide

theorem fieldFamily_of_selects {row : OpcodeRow} {w : Word16} (hrow : row ∈ opcodeMap)
    (h : row.selects w = true) : fieldFamily row.pattern = fieldFamily w := by
  have hmatch : w &&& row.mask = row.pattern := beq_iff_eq.mp h
  calc fieldFamily row.pattern = fieldFamily w &&& fieldFamily row.mask := by
        rw [← hmatch]; exact BitVec.extractLsb'_and
    _ = fieldFamily w &&& 0xF := by rw [fieldFamily_mask row hrow]
    _ = fieldFamily w := nibble_and_ones _

/-- The search may be restricted to the rows of the word's family. -/
theorem find_opcodeMap (w : Word16) :
    opcodeMap.find? (fun row => row.selects w) =
      (familyRows (fieldFamily w)).find? (fun row => row.selects w) := by
  rw [familyRows, List.find?_filter]
  refine List.find?_congr fun row hrow => ?_
  cases h : row.selects w with
  | false => simp
  | true => simp [fieldFamily_of_selects hrow h]

/-! The three kinds of row, by what their mask keeps besides the family, and each row's test on a word of its
family. -/

def rowOfFamily (f : Nibble) (m : String) : OpcodeRow := ⟨m, 0xF000, layoutNNN f 0⟩
def rowOfN (f : Nibble) (m : String) (n : Nibble) : OpcodeRow := ⟨m, 0xF00F, layoutXYN f 0 0 n⟩
def rowOfKK (f : Nibble) (m : String) (kk : Byte) : OpcodeRow := ⟨m, 0xF0FF, layoutXKK f 0 kk⟩

section
variable {w : Word16} {f : Nibble} (m : String)

theorem rowOfFamily_selects (hf : (fieldFamily w).toNat = f.toNat) : (rowOfFamily f m).selects w = true := by
  rw [← layoutNNN_of_family hf]
  exact beq_iff_eq.mpr (mask_high_nibble f _)

theorem rowOfN_selects (hf : (fieldFamily w).toNat = f.toNat) (n : Nibble) :
    (rowOfN f m n).selects w = (fieldN w == n) := by
  have hmask : w &&& 0xF00F#16 = layoutXYN f 0 0 (fieldN w) := by
    conv_lhs => rw [← layoutXYN_of_family hf]
    exact mask_family_and_n f _ _ _
  rw [Bool.eq_iff_iff, beq_iff_eq]
  refine beq_iff_eq.trans ⟨fun h => ?_, fun h => ?_⟩
  · have hlayout : layoutXYN f 0 0 (fieldN w) = layoutXYN f 0 0 n := hmask.symm.trans h
    simpa only [fieldN_layoutXYN] using congrArg fieldN hlayout
  · exact h ▸ hmask

theorem rowOfKK_selects (hf : (fieldFamily w).toNat = f.toNat) (kk : Byte) :
    (rowOfKK f m kk).selects w = (fieldKK w == kk) := by
  have hmask : w &&& 0xF0FF#16 = layoutXKK f 0 (fieldKK w) := by
    conv_lhs => rw [← layoutXKK_of_family hf]
    exact mask_family_and_kk f _ _
  rw [Bool.eq_iff_iff, beq_iff_eq]
  refine beq_iff_eq.trans ⟨fun h => ?_, fun h => ?_⟩
  · have hlayout : layoutXKK f 0 (fieldKK w) = layoutXKK f 0 kk := hmask.symm.trans h
    simpa only [fieldKK_layoutXKK] using congrArg fieldKK hlayout
  · exact h ▸ hmask

/-- A search among rows that test one field is the lookup of the field. -/
theorem find_rows_eq_lookup {k : Nat} {field : BitVec k} {row : String → BitVec k → OpcodeRow}
    (hname : ∀ m a, (row m a).mnemonic = m) (hselects : ∀ m a, (row m a).selects w = (field == a))
    (rows : List (BitVec k × String)) :
    ((rows.map fun p => row p.2 p.1).find? (fun r => r.selects w)).map OpcodeRow.mnemonic =
      rows.lookup field := by
  induction rows with
  | nil => rfl
  | cons p rows ih =>
    rw [List.map_cons, List.find?_cons, List.lookup_cons, hselects, ← ih]
    cases field == p.1 with
    | true => exact congrArg some (hname p.2 p.1)
    | false => rfl

end

/-! The row that the map selects, family by family. -/

/-- The mnemonic of the row that R105 selects for a word. -/
def selectedMnemonic (w : Word16) : Option String :=
  (opcodeMap.find? (fun row => row.selects w)).map OpcodeRow.mnemonic

section
variable {w : Word16}

theorem selectedMnemonic_of_family {f : Nibble} (hf : (fieldFamily w).toNat = f.toNat) :
    selectedMnemonic w = ((familyRows f).find? (fun row => row.selects w)).map OpcodeRow.mnemonic := by
  rw [selectedMnemonic, find_opcodeMap, BitVec.eq_of_toNat_eq hf]

/-- A family of one row that tests the family alone. -/
theorem selectedMnemonic_of_single {f : Nibble} {m : String} (hf : (fieldFamily w).toNat = f.toNat)
    (hrows : familyRows f = [rowOfFamily f m]) : selectedMnemonic w = some m := by
  rw [selectedMnemonic_of_family hf, hrows, List.find?_cons, rowOfFamily_selects m hf]
  rfl

/-- A family whose rows test the last nibble. -/
theorem selectedMnemonic_of_n {f : Nibble} (rows : List (Nibble × String))
    (hf : (fieldFamily w).toNat = f.toNat) (hrows : familyRows f = rows.map fun p => rowOfN f p.2 p.1) :
    selectedMnemonic w = rows.lookup (fieldN w) := by
  rw [selectedMnemonic_of_family hf, hrows]
  exact find_rows_eq_lookup (fun _ _ => rfl) (fun m n => rowOfN_selects m hf n) rows

/-- A family whose rows test the low byte. -/
theorem selectedMnemonic_of_kk {f : Nibble} (rows : List (Byte × String))
    (hf : (fieldFamily w).toNat = f.toNat) (hrows : familyRows f = rows.map fun p => rowOfKK f p.2 p.1) :
    selectedMnemonic w = rows.lookup (fieldKK w) := by
  rw [selectedMnemonic_of_family hf, hrows]
  exact find_rows_eq_lookup (fun _ _ => rfl) (fun m kk => rowOfKK_selects m hf kk) rows

theorem lookup_cons_eq_ite {k : Nat} (field a : BitVec k) (m : String) (rows : List (BitVec k × String)) :
    ((a, m) :: rows).lookup field = if field.toNat = a.toNat then some m else rows.lookup field := by
  rw [List.lookup_cons]
  split_ifs with h
  · rw [BitVec.eq_of_toNat_eq h, beq_self_eq_true]
  · rw [beq_eq_false_iff_ne.mpr fun e => h (congrArg BitVec.toNat e)]

/-- What the decode procedure gives, as a mnemonic. -/
def decodedMnemonic : Except DecodeError Instr → Option String
  | .ok i => some (mnemonic i)
  | .error _ => none

/-- Family 0: the two fixed words come first. -/
theorem selectedMnemonic_family0 (hf : (fieldFamily w).toNat = (0x0 : Nibble).toNat) :
    selectedMnemonic w = some (mnemonic (decode0 w)) := by
  have hrows : familyRows 0x0 =
      [⟨"CLS", 0xFFFF, 0x00E0⟩, ⟨"RET", 0xFFFF, 0x00EE⟩, rowOfFamily 0x0 "SYS"] := rfl
  have hfixed : ∀ m p, OpcodeRow.selects ⟨m, 0xFFFF, p⟩ w = decide (w = p) := fun m p => by
    rw [OpcodeRow.selects, show w &&& 0xFFFF = w from BitVec.and_allOnes]
    rfl
  rw [selectedMnemonic_of_family hf, hrows, decode0]
  split_ifs with hcls hret
  · rw [hcls]
    rfl
  · rw [hret]
    rfl
  · rw [List.find?_cons_of_neg, List.find?_cons_of_neg, List.find?_cons_of_pos]
    · rfl
    · exact rowOfFamily_selects "SYS" hf
    · rw [hfixed]
      exact fun h => hret (of_decide_eq_true h)
    · rw [hfixed]
      exact fun h => hcls (of_decide_eq_true h)

theorem selectedMnemonic_family8 (hf : (fieldFamily w).toNat = (0x8 : Nibble).toNat) :
    selectedMnemonic w = decodedMnemonic (decode8 w) := by
  rw [selectedMnemonic_of_n [(0x0, "LD_REG"), (0x1, "OR"), (0x2, "AND"), (0x3, "XOR"), (0x4, "ADD_REG"),
    (0x5, "SUB"), (0x6, "SHR"), (0x7, "SUBN"), (0xE, "SHL")] hf rfl]
  unfold decode8
  split <;> simp_all [lookup_cons_eq_ite, decodedMnemonic, mnemonic]

theorem selectedMnemonic_familyE (hf : (fieldFamily w).toNat = (0xE : Nibble).toNat) :
    selectedMnemonic w = decodedMnemonic (decodeE w) := by
  rw [selectedMnemonic_of_kk [(0x9E, "SKP"), (0xA1, "SKNP")] hf rfl]
  unfold decodeE
  split <;> simp_all [lookup_cons_eq_ite, decodedMnemonic, mnemonic]

theorem selectedMnemonic_familyF (hf : (fieldFamily w).toNat = (0xF : Nibble).toNat) :
    selectedMnemonic w = decodedMnemonic (decodeF w) := by
  rw [selectedMnemonic_of_kk [(0x07, "LD_VX_DT"), (0x0A, "LD_VX_K"), (0x15, "LD_DT_VX"), (0x18, "LD_ST_VX"),
    (0x1E, "ADD_I"), (0x29, "LD_F"), (0x33, "LD_B"), (0x55, "ST_REGS"), (0x65, "LD_REGS")] hf rfl]
  unfold decodeF
  split <;> simp_all [lookup_cons_eq_ite, decodedMnemonic, mnemonic]

/-- A family of one row that tests the last nibble for 0. -/
theorem selectedMnemonic_of_zero_n {f : Nibble} {m : String} {i : Instr} (refusal : DecodeError)
    (hf : (fieldFamily w).toNat = f.toNat) (hrows : familyRows f = [rowOfN f m 0]) (hm : mnemonic i = m) :
    selectedMnemonic w = decodedMnemonic (if fieldN w = 0 then .ok i else .error refusal) := by
  rw [selectedMnemonic_of_n [(0, m)] hf hrows, List.lookup_cons]
  split_ifs with hn
  · rw [hn]
    exact congrArg some hm.symm
  · rw [beq_eq_false_iff_ne.mpr hn]
    rfl

/-- The mnemonic of what R104 decodes is that of the row that R105 selects, by the arms of the decode
procedure. -/
theorem decodedMnemonic_decode (w : Word16) : decodedMnemonic (decode w) = selectedMnemonic w := by
  unfold decode
  split
  case h_1 hf => exact (selectedMnemonic_family0 hf).symm
  case h_2 hf => exact (selectedMnemonic_of_single (f := 0x1) hf rfl).symm
  case h_3 hf => exact (selectedMnemonic_of_single (f := 0x2) hf rfl).symm
  case h_4 hf => exact (selectedMnemonic_of_single (f := 0x3) hf rfl).symm
  case h_5 hf => exact (selectedMnemonic_of_single (f := 0x4) hf rfl).symm
  case h_6 hf => exact (selectedMnemonic_of_zero_n (f := 0x5) _ hf rfl rfl).symm
  case h_7 hf => exact (selectedMnemonic_of_single (f := 0x6) hf rfl).symm
  case h_8 hf => exact (selectedMnemonic_of_single (f := 0x7) hf rfl).symm
  case h_9 hf => exact (selectedMnemonic_family8 hf).symm
  case h_10 hf => exact (selectedMnemonic_of_zero_n (f := 0x9) _ hf rfl rfl).symm
  case h_11 hf => exact (selectedMnemonic_of_single (f := 0xA) hf rfl).symm
  case h_12 hf => exact (selectedMnemonic_of_single (f := 0xB) hf rfl).symm
  case h_13 hf => exact (selectedMnemonic_of_single (f := 0xC) hf rfl).symm
  case h_14 hf => exact (selectedMnemonic_of_single (f := 0xD) hf rfl).symm
  case h_15 hf => exact (selectedMnemonic_familyE hf).symm
  case h_16 => exact (selectedMnemonic_familyF (by have := (fieldFamily w).isLt; grind)).symm

end

/-- Settles O3, by `decodedMnemonic_decode`. -/
theorem decodeSelectsTheOpcodeMapRow : Obligations.DecodeSelectsTheOpcodeMapRow := by
  intro w
  refine Eq.trans ?_ (decodedMnemonic_decode w)
  cases decode w <;> rfl

end Sys2Proof
end

section
/-! What an instruction can do, said once over all of them: it takes the exception that is its own, or enters
the key wait, or stays within a frame of its own. O17, O25 and O41 follow. -/

namespace Sys2Proof.Machine

open Sys2Proof.Safety

/-- The parts that an instruction may write when it takes no exception and does not wait. Of `I`, the timers,
memory, the framebuffer, the dirty flag and the draw counter it says nothing. -/
def mayWrite (i : Instr) : StatePart → Prop
  | .v r => isDestination i r = true ∨ writesFlag i = true ∧ r = vF
  | .pc => assignsPc i = true
  | .sp | .stack _ => i = .ret ∨ ∃ nnn, i = .call nnn
  | .i | .dt | .st | .mem _ | .pixel _ _ | .dirty | .draws => True
  | .key | .lastKey | .run | .ir | .cyc | .stopReq | .err | .config | .outbox | .schedule => False

/-! The frame of each way in which an instruction acts, within `mayWrite`. -/

section
variable {i : Instr} {s : State}

theorem unchanged_of_setV {x : Nibble} (b : Byte) (hx : isDestination i x = true) :
    UnchangedBut (mayWrite i) s (s.setV x b) :=
  (unchanged_setV s x b).mono (by rintro _ rfl; exact .inl hx)

theorem unchanged_of_writeFlagged {x : Nibble} (f : Bool) (b : Byte) (hx : isDestination i x = true)
    (hf : writesFlag i = true) : UnchangedBut (mayWrite i) s (writeFlagged x f b s) := by
  refine (unchanged_writeFlagged x f b s).mono ?_
  rintro _ (rfl | rfl)
  · exact .inl hx
  · exact .inr ⟨hf, rfl⟩

theorem unchanged_of_setPc (w : Word16) (hpc : assignsPc i = true) :
    UnchangedBut (mayWrite i) s (s.setPc w) :=
  (unchanged_setPc s w).mono (by rintro _ rfl; exact hpc)

theorem unchanged_of_skipIf (c : Bool) (hpc : assignsPc i = true) :
    UnchangedBut (mayWrite i) s (skipIf c s) :=
  (unchanged_skipIf c s).mono (by rintro _ rfl; exact hpc)

theorem unchanged_of_setI (w : Word16) : UnchangedBut (mayWrite i) s (s.setI w) :=
  (unchanged_setI s w).mono (by rintro _ rfl; trivial)

theorem unchanged_of_setFb (g : Framebuffer) : UnchangedBut (mayWrite i) s (s.setFb g) := by
  refine (unchanged_setFb s g).mono ?_
  rintro _ (rfl | ⟨px, py, rfl⟩) <;> trivial

theorem unchanged_of_writeBytes (a : Nat) (bs : List Byte) :
    UnchangedBut (mayWrite i) s (writeBytes a bs s) :=
  (unchanged_writeBytes a bs s).mono (by rintro _ ⟨k, -, rfl⟩; trivial)

end

/-- Everything an instruction can do. -/
theorem exec_cases {i : Instr} {s t : State} (h : exec i s = .next t) :
    (∃ k m, fatalOf i = some k ∧ t = raiseFatal k m s) ∨
    (∃ x, i = .ldVxK x ∧ t = s.setRun .waitKey) ∨
    UnchangedBut (mayWrite i) s t := by
  cases i with
  | cls => cases h; exact .inr (.inr (unchanged_of_setFb _))
  | sys nnn => cases h; exact .inr (.inr (unchangedBut_same _ s))
  | ret =>
    rcases Nat.eq_zero_or_pos s.sp.val with hempty | hpos
    · cases (exec_ret_of_empty hempty).symm.trans h
      exact .inl ⟨_, _, rfl, rfl⟩
    · cases (exec_ret_of_pos hpos).symm.trans h
      exact .inr (.inr (((unchanged_setDepth s _).mono (by rintro _ rfl; exact .inl rfl)).trans
        (unchanged_of_setPc _ rfl)))
  | call nnn =>
    rcases Nat.lt_or_ge s.sp.val 16 with hlt | hfull
    · cases (exec_call_of_lt nnn hlt).symm.trans h
      exact .inr (.inr (((unchanged_setEntry s _ hlt s.pc _).mono
        (by rintro _ (rfl | rfl) <;> exact .inr ⟨nnn, rfl⟩)).trans (unchanged_of_setPc _ rfl)))
    · cases (exec_call_of_full nnn (Nat.le_antisymm (Nat.le_of_lt_succ s.sp.isLt) hfull)).symm.trans h
      exact .inl ⟨_, _, rfl, rfl⟩
  | drw x y n =>
    cases (execDrw_eq x y n s).symm.trans h
    split_ifs
    · exact .inr (.inr (((unchanged_setV s vF _).mono (by rintro _ rfl; exact .inr ⟨rfl, rfl⟩)).trans
        (unchanged_of_setFb _)))
    · exact .inl ⟨_, _, rfl, rfl⟩
  | ldB x =>
    cases (execLdB_eq x s).symm.trans h
    split_ifs
    · exact .inr (.inr (unchanged_of_writeBytes _ _))
    · exact .inl ⟨_, _, rfl, rfl⟩
  | stRegs x =>
    cases (execStRegs_eq x s).symm.trans h
    split_ifs
    · exact .inr (.inr (unchanged_of_writeBytes _ _))
    · exact .inl ⟨_, _, rfl, rfl⟩
  | ldRegs x =>
    cases (execLdRegs_eq x s).symm.trans h
    split_ifs
    · refine .inr (.inr ((unchanged_loadRegisters _ _ s (by have := x.isLt; omega)).mono ?_))
      rintro _ ⟨r, hr, rfl⟩
      exact .inl (decide_eq_true (Nat.lt_succ_iff.mp hr))
    · exact .inl ⟨_, _, rfl, rfl⟩
  | ldVxK x =>
    cases (execLdVxK_eq x s).symm.trans h
    split_ifs
    · exact .inr (.inl ⟨x, rfl, rfl⟩)
    · exact .inr (.inr (unchanged_of_setV _ (beq_self_eq_true x)))
  | rnd x kk =>
    cases h
    exact .inr (.inr (((unchanged_drawn s).mono (by rintro _ rfl; trivial)).trans
      (unchanged_of_setV _ (beq_self_eq_true x))))
  | ldDtVx x => cases h; exact .inr (.inr ((unchanged_setDt s _).mono (by rintro _ rfl; trivial)))
  | ldStVx x => cases h; exact .inr (.inr ((unchanged_setSt s _).mono (by rintro _ rfl; trivial)))
  | jp nnn | jpV0 nnn => cases h; exact .inr (.inr (unchanged_of_setPc _ rfl))
  | seImm x kk | sneImm x kk | seReg x y | sneReg x y | skp x | sknp x =>
    cases h; exact .inr (.inr (unchanged_of_skipIf _ rfl))
  | ldI nnn | addI x | ldF x => cases h; exact .inr (.inr (unchanged_of_setI _))
  | addReg x y | sub x y | shr x y | subn x y | shl x y =>
    cases h; exact .inr (.inr (unchanged_of_writeFlagged _ _ (beq_self_eq_true x) rfl))
  | ldImm x _ | addImm x _ | ldReg x _ | orReg x _ | andReg x _ | xorReg x _ | ldVxDt x =>
    cases h; exact .inr (.inr (unchanged_of_setV _ (beq_self_eq_true x)))

/-- A part that is neither an instruction's own nor written by an exception or the key wait is unchanged. -/
theorem agrees_of_exec {i : Instr} {s t : State} {p : StatePart} (h : exec i s = .next t)
    (hwrite : ¬ mayWrite i p) (hfatal : ¬ fatalParts p) : p.Agrees s t := by
  obtain ⟨k, m, -, rfl⟩ | ⟨x, -, rfl⟩ | hframe := exec_cases h
  · exact unchanged_fatal _ _ _ _ _ p hfatal
  · exact unchanged_setRun s _ p fun e => hfatal (.inl e)
  · exact hframe p hwrite

/-- Settles O17: `pc` is in an instruction's frame unless it assigns it. -/
theorem onlyTransfersAssignThePc : Obligations.OnlyTransfersAssignThePc := by
  intro i s t hi h
  exact agrees_of_exec (p := .pc) h (by simp [mayWrite, hi]) (by simp [fatalParts])

/-- Settles O25: a register is in an instruction's frame unless it is a destination or the flag. -/
theorem registersChangeOnlyAsDestinations : Obligations.RegistersChangeOnlyAsDestinations := by
  intro i r s t hdest hflag h
  refine agrees_of_exec (p := .v r) h ?_ (by simp [fatalParts])
  rintro (hr | ⟨hwrites, hr⟩)
  · exact Bool.false_ne_true (hdest.symm.trans hr)
  · exact hflag hwrites hr

/-- Settles O41, by the three ways of an instruction: only the exception halts a running core. -/
theorem fatalExceptionsArePrecise : Obligations.FatalExceptionsArePrecise := by
  intro i s t k hrun h hhalt
  obtain ⟨k', m, hk, rfl⟩ | ⟨x, -, rfl⟩ | hframe := exec_cases h
  · cases (fatal_run ..).symm.trans hhalt
    exact ⟨hk, unchanged_fatal _ _ _ _ _⟩
  · cases hhalt
  · have hsame : t.run = s.run := hframe .run not_false
    rw [hsame, hrun] at hhalt
    cases hhalt

end Sys2Proof.Machine
end

section
/-! The machine invariant (10_state.md R34, R37, R44, R48), clause by clause: what each instruction does to
memory, the stack and `pc`, and which parts of the state the invariant reads. -/

namespace Sys2Proof.Machine

open Sys2Proof.Safety

/-! Memory. -/

/-- An instruction leaves memory as it is or stores a block inside it. -/
theorem exec_mem {i : Instr} {s t : State} (h : exec i s = .next t) :
    t.mem = s.mem ∨ ∃ bs, s.i.toNat + bs.length ≤ 4096 ∧ t = writeBytes s.i.toNat bs s := by
  cases i with
  | ldB x =>
    cases (execLdB_eq x s).symm.trans h
    split_ifs with hspan
    · exact .inr ⟨decimalDigits (s.getV x), hspan, rfl⟩
    · exact .inl rfl
  | stRegs x =>
    cases (execStRegs_eq x s).symm.trans h
    split_ifs with hspan
    · exact .inr ⟨registersUpTo s x, by rw [registersUpTo_length]; exact hspan, rfl⟩
    · exact .inl rfl
  | ret =>
    cases (execRet_eq s).symm.trans h
    split_ifs <;> exact .inl rfl
  | call nnn =>
    cases (execCall_eq nnn s).symm.trans h
    split_ifs <;> exact .inl rfl
  | drw x y n =>
    cases (execDrw_eq x y n s).symm.trans h
    split_ifs <;> exact .inl rfl
  | ldRegs x =>
    cases (execLdRegs_eq x s).symm.trans h
    split_ifs
    · rw [loadRegisters_eq]; exact .inl rfl
    · exact .inl rfl
  | ldVxK x =>
    cases (execLdVxK_eq x s).symm.trans h
    split_ifs <;> exact .inl rfl
  | seImm x kk | sneImm x kk | seReg x y | sneReg x y | skp x | sknp x =>
    cases h; rw [skipIf_eq]; exact .inl rfl
  | _ => cases h; exact .inl rfl

theorem exec_memory_wf {i : Instr} {s t : State} (h : exec i s = .next t) (hs : Memory.wf s.config s.mem) :
    Memory.wf t.config t.mem := by
  obtain ⟨-, -, -, -, -, hconfig, -⟩ := exec_sameFrame h
  rw [hconfig]
  obtain hsame | ⟨bs, hspan, rfl⟩ := exec_mem h
  · rw [hsame]
    exact hs
  · exact writeBytes_wf _ bs s hspan hs

/-! The stack and `pc`. -/

/-- Every address held on the stack is at most 4096. -/
def StackBounded (s : State) : Prop := ∀ k, k < s.sp.val → (s.stackEntry k).toNat ≤ 4096

theorem exec_stackBounded {i : Instr} {s t : State} (h : exec i s = .next t) (hpc : s.pc.toNat ≤ 4096)
    (hs : StackBounded s) : StackBounded t := by
  by_cases hi : i = .ret ∨ ∃ nnn, i = .call nnn
  · obtain rfl | ⟨nnn, rfl⟩ := hi
    · rcases Nat.eq_zero_or_pos s.sp.val with hempty | hpos
      · cases (exec_ret_of_empty hempty).symm.trans h
        exact hs
      · cases (exec_ret_of_pos hpos).symm.trans h
        exact fun k hk => hs k (Nat.lt_of_lt_of_le hk (Nat.sub_le _ _))
    · rcases Nat.lt_or_ge s.sp.val 16 with hlt | hfull
      · cases (exec_call_of_lt nnn hlt).symm.trans h
        intro k hk
        rw [State.setPc_stackEntry, stackEntry_set]
        split_ifs with hnew
        · exact hpc
        · exact hs k (Nat.lt_of_le_of_ne (Nat.le_of_lt_succ hk) hnew)
      · cases (exec_call_of_full nnn (Nat.le_antisymm (Nat.le_of_lt_succ s.sp.isLt) hfull)).symm.trans h
        exact hs
  · have hsp : t.sp = s.sp := agrees_of_exec (p := .sp) h hi (by simp [fatalParts])
    intro k hk
    have hentry : t.stackEntry k = s.stackEntry k :=
      agrees_of_exec (p := .stack k) h hi (by simp [fatalParts])
    rw [hentry]
    exact hs k (hsp ▸ hk)

theorem zext_toNat_le (nnn : Addr12) : nnn.zext.toNat ≤ 0x10FE := by
  rw [zext_toNat]
  exact Nat.le_trans (Nat.le_of_lt nnn.isLt) (by decide)

/-- The sum of R158 does not wrap. -/
theorem jpV0_target_toNat (nnn : Addr12) (b : Byte) :
    (nnn.zext + zextByte b).toNat = nnn.toNat + b.toNat := by
  have hnnn := nnn.isLt
  have hb := b.isLt
  rw [add_zextByte_toNat, zext_toNat]
  omega

theorem skipIf_pc_le {s : State} (c : Bool) (hpc : s.pc.toNat ≤ 4096) :
    (skipIf c s).pc.toNat ≤ 0x10FE := by
  cases c with
  | false => exact Nat.le_trans hpc (by decide)
  | true =>
    rw [skipIf_true, State.setPc_pc]
    bv_omega

/-- The bound that R34 derives: the farthest targets are those of `Bnnn`. -/
theorem exec_pc_le {i : Instr} {s t : State} (h : exec i s = .next t) (hpc : s.pc.toNat ≤ 4096)
    (hs : StackBounded s) : t.pc.toNat ≤ 0x10FE := by
  have hfar : s.pc.toNat ≤ 0x10FE := Nat.le_trans hpc (by decide)
  cases hi : assignsPc i with
  | false => exact (onlyTransfersAssignThePc i s t hi h) ▸ hfar
  | true =>
    cases i with
    | ret =>
      rcases Nat.eq_zero_or_pos s.sp.val with hempty | hpos
      · cases (exec_ret_of_empty hempty).symm.trans h
        exact hfar
      · cases (exec_ret_of_pos hpos).symm.trans h
        exact Nat.le_trans (hs _ (Nat.sub_lt hpos Nat.one_pos)) (by decide)
    | call nnn =>
      cases (execCall_eq nnn s).symm.trans h
      split_ifs
      · exact zext_toNat_le nnn
      · exact hfar
    | jp nnn => cases h; exact zext_toNat_le nnn
    | jpV0 nnn =>
      cases h
      have hnnn := nnn.isLt
      have hb := (s.getV 0).isLt
      rw [State.setPc_pc, jpV0_target_toNat]
      omega
    | seImm x kk | sneImm x kk | seReg x y | sneReg x y | skp x | sknp x =>
      cases h; exact skipIf_pc_le _ hpc
    | _ => cases hi

/-! The invariant. -/

/-- The parts of the state that the invariant reads. -/
def invParts (s : State) :
    Config × Memory × Word16 × Fin 17 × Vector Word16 16 × RunState × Option ErrorRecord × Word16 :=
  (s.config, s.mem, s.pc, s.sp, s.stack, s.run, s.err, s.ir)

theorem machineInv_congr {s t : State} (h : invParts t = invParts s) (hs : MachineInv s) : MachineInv t := by
  simp only [invParts, Prod.mk.injEq] at h
  obtain ⟨hconfig, hmem, hpc, hsp, hstack, hrun, herr, hir⟩ := h
  refine ⟨?_, ?_, ?_, ?_, ?_⟩
  · rw [hconfig, hmem]; exact hs.memory
  · rw [hpc]; exact hs.pcBound
  · simp only [State.stackEntry, hsp, hstack]; exact hs.stackBound
  · rw [hrun, herr]; exact hs.errIffFatal
  · rw [hrun, hir]; exact hs.waitHoldsKeyRead

theorem invParts_completeCycle (s : State) : invParts (completeCycle s) = invParts s := by
  rw [completeCycle_eq]
  rfl

theorem machineInv_afterInstr {s : State} (hs : MachineInv s) : MachineInv (afterInstr s) := by
  unfold afterInstr
  split_ifs
  · exact machineInv_congr (invParts_completeCycle s) hs
  · exact hs

/-- `ERR` is empty unless the core halted on a fatal error. -/
theorem err_eq_none {s : State} (hs : MachineInv s) (hrun : ∀ k, s.run ≠ .halted (.fatal k)) :
    s.err = none :=
  Option.eq_none_iff_forall_ne_some.mpr fun e he => hrun e.kind ((hs.errIffFatal e.kind).mpr ⟨e, he, rfl⟩)

/-- A state with no error record that is not halted on a fatal error meets the clause about `ERR`. -/
theorem errIffFatal_of_none {s : State} (herr : s.err = none) (hrun : ∀ k, s.run ≠ .halted (.fatal k))
    (k : FatalKind) : s.run = .halted (.fatal k) ↔ ∃ e, s.err = some e ∧ e.kind = k := by
  simp [herr, hrun k]

theorem machineInv_fatal {s : State} (k : FatalKind) (p o : Word16) (m : Option Nat) (hs : MachineInv s) :
    MachineInv (fatal k p o m s) where
  memory := hs.memory
  pcBound := hs.pcBound
  stackBound := hs.stackBound
  errIffFatal k' := by simp
  waitHoldsKeyRead h := by cases h

theorem machineInv_stop {s : State} (hs : MachineInv s) (hrun : ∀ k, s.run ≠ .halted (.fatal k)) :
    MachineInv (s.setRun (.halted .stopped)) :=
  have herr : s.err = none := err_eq_none hs hrun
  { memory := hs.memory
    pcBound := hs.pcBound
    stackBound := hs.stackBound
    errIffFatal := errIffFatal_of_none herr (by simp)
    waitHoldsKeyRead := fun h => by cases h }

end Sys2Proof.Machine
end

section
/-! Every step keeps the machine invariant: the instructions, the cycle, the key wait, the host's steps. O50
and O51. -/

namespace Sys2Proof.Machine

open Sys2Proof.Safety

/-- What holds once a word is fetched: `pc` is already advanced, the core runs and no error is recorded. -/
structure InsideInstr (s : State) : Prop where
  memory : Memory.wf s.config s.mem
  pcBound : s.pc.toNat ≤ 4096
  stackBound : StackBounded s
  running : s.run = .running
  noError : s.err = none

/-- A running core without an error record meets the last two clauses of the invariant. -/
theorem machineInv_of_running {s : State} (hmem : Memory.wf s.config s.mem) (hpc : s.pc.toNat ≤ 0x10FE)
    (hstack : StackBounded s) (hrun : s.run = .running) (herr : s.err = none) : MachineInv s where
  memory := hmem
  pcBound := hpc
  stackBound := hstack
  errIffFatal := errIffFatal_of_none herr (by simp [hrun])
  waitHoldsKeyRead h := by simp [hrun] at h

theorem InsideInstr.machineInv {s : State} (hs : InsideInstr s) : MachineInv s :=
  machineInv_of_running hs.memory (Nat.le_trans hs.pcBound (by decide)) hs.stackBound hs.running hs.noError

theorem insideInstr_latch {s : State} (w : Word16) (hs : MachineInv s) (hrun : s.run = .running)
    (hpc : s.pc.toNat + 1 < 4096) : InsideInstr (latch w s) where
  memory := hs.memory
  pcBound := by
    show (s.pc + 2).toNat ≤ 4096
    bv_omega
  stackBound := hs.stackBound
  running := hrun
  noError := (err_eq_none hs (by simp [hrun]) :)

/-- An instruction decoded from `IR` keeps the invariant, by the three ways in which it acts. -/
theorem machineInv_exec {i : Instr} {s t : State} (hs : InsideInstr s) (hdecode : decode s.ir = .ok i)
    (h : exec i s = .next t) : MachineInv t := by
  obtain ⟨k, m, -, rfl⟩ | ⟨x, rfl, rfl⟩ | hframe := exec_cases h
  · exact machineInv_fatal _ _ _ _ hs.machineInv
  · exact
      { memory := hs.memory
        pcBound := hs.machineInv.pcBound
        stackBound := hs.stackBound
        errIffFatal := errIffFatal_of_none hs.noError (by simp)
        waitHoldsKeyRead := fun _ => ⟨x, hdecode⟩ }
  · have hrun : t.run = s.run := hframe .run not_false
    have herr : t.err = s.err := hframe .err not_false
    exact machineInv_of_running (exec_memory_wf h hs.memory) (exec_pc_le h hs.pcBound hs.stackBound)
      (exec_stackBounded h hs.pcBound hs.stackBound) (hrun.trans hs.running) (herr.trans hs.noError)

theorem machineInv_cycle {s t : State} (hs : MachineInv s) (hrun : s.run = .running)
    (h : cycle s = .next t) : MachineInv t := by
  obtain ⟨-, rfl⟩ | ⟨-, -, rfl⟩ | ⟨-, hpc, w, -, ⟨e, -, rfl⟩ | ⟨i, u, hdecode, hexec, rfl⟩⟩ := cycle_cases h
  · exact machineInv_stop hs (by simp [hrun])
  · exact machineInv_fatal _ _ _ _ (machineInv_congr (s := s) rfl hs)
  · have hinside := insideInstr_latch w hs hrun hpc
    refine machineInv_congr ((invParts_completeCycle _).trans ?_) hinside.machineInv
    rw [invalidInstruction_eq]
    rfl
  · exact machineInv_afterInstr (machineInv_exec (insideInstr_latch w hs hrun hpc) hdecode hexec)

theorem machineInv_waitStep {s t : State} (hs : MachineInv s) (hrun : s.run = .waitKey)
    (h : waitStep s = .next t) : MachineInv t := by
  obtain ⟨-, rfl⟩ | ⟨-, -, rfl⟩ | ⟨-, -, rfl⟩ := waitStep_cases h
  · exact machineInv_stop hs (by simp [hrun])
  · exact hs
  · have herr : s.err = none := err_eq_none hs (by simp [hrun])
    exact machineInv_congr (invParts_completeCycle _)
      (machineInv_of_running hs.memory hs.pcBound hs.stackBound rfl herr)

theorem machineInv_coreStep {s t : State} (hs : MachineInv s) (h : coreStep s = .next t) : MachineInv t := by
  obtain ⟨hrun, hcycle⟩ | ⟨hrun, hwait⟩ := coreStep_cases h
  · exact machineInv_cycle hs hrun hcycle
  · exact machineInv_waitStep hs hrun hwait

/-- What `Reset` leaves besides memory: the reset values, and the model's own fields as they were. -/
theorem resetWith_eq (rom : List Byte) (s : State) :
    resetWith rom s =
      { State.reset with
        mem := (resetWith rom s).mem, config := s.config, draws := s.draws, outbox := s.outbox,
        schedule := s.schedule } :=
  writeBytes_eq _ _ _

/-- `Reset` of an image that fits installs a state that meets the invariant, from any state. -/
theorem machineInv_resetWith {rom : List Byte} (s : State) (hlen : rom.length ≤ 3584) :
    MachineInv (resetWith rom s) := by
  have hspan : Config.entry + rom.length ≤ 4096 := Nat.add_le_add_left hlen 512
  have hmem : Memory.wf s.config (resetWith rom s).mem := writeBytes_wf _ _ _ hspan (Memory.wf_nil _)
  have hpc : State.reset.pc.toNat ≤ 0x10FE := by decide
  have hstack : StackBounded State.reset := fun k hk => absurd hk (Nat.not_lt_zero k)
  rw [resetWith_eq]
  exact machineInv_of_running hmem hpc hstack rfl rfl

theorem machineInv_envStep {e : EnvStep} {s t : State} (hs : MachineInv s) (h : envStep e s = .next t) :
    MachineInv t := by
  obtain ⟨k, -, rfl⟩ | ⟨k, -, rfl⟩ | ⟨-, rfl⟩ | ⟨rom, -, hlen, rfl⟩ | ⟨-, rfl⟩ := envStep_cases h
  · exact machineInv_congr (s := s) rfl hs
  · exact machineInv_congr (s := s) rfl hs
  · exact machineInv_congr (s := s) rfl hs
  · exact machineInv_resetWith s hlen
  · exact machineInv_congr (s := s) rfl hs

/-- The core's step starts from the state, its own turn taken off the schedule. -/
theorem eq_of_coreDue {s s' : State} (h : CoreDue s s') : s' = { s with schedule := s'.schedule } := by
  obtain ⟨-, rfl⟩ | ⟨rest, -, rfl⟩ := h <;> rfl

/-- Settles O50, by whose turn it is: the schedule is no part of the invariant. -/
theorem everyStepKeepsTheInvariant : Obligations.EveryStepKeepsTheInvariant := by
  intro s t hs h
  have hany : ∀ rest, MachineInv { s with schedule := rest } := fun _ => machineInv_congr (s := s) rfl hs
  obtain ⟨s', hdue, hcore⟩ | ⟨e, rest, -, henv⟩ := step_cases h
  · exact machineInv_coreStep (eq_of_coreDue hdue ▸ hany _) hcore
  · exact machineInv_envStep (hany rest) henv

/-- Settles O51: the reset state is what `Reset` of the empty image leaves. -/
theorem resetMeetsTheInvariant : Obligations.ResetMeetsTheInvariant :=
  machineInv_resetWith (rom := []) State.reset (by decide)

end Sys2Proof.Machine
end

section
/-! What the core's steps do to the parts it shares with the host: the host's inputs stay, and events are only
added to the outbox. What the host's steps do to the run state and the stop request. O45, O52, O53 and O57. -/

namespace Sys2Proof.Machine

open Sys2Proof.Safety

/-! The host's inputs (10_state.md sections 5 and 6). -/

/-- The keyboard state and the stop request. -/
def hostInputs (s : State) : Vector Bool 16 × Nibble × Bool := (s.key, s.lastKey, s.stopReq)

theorem hostInputs_completeCycle (s : State) : hostInputs (completeCycle s) = hostInputs s := by
  rw [completeCycle_eq]
  rfl

theorem hostInputs_afterInstr (s : State) : hostInputs (afterInstr s) = hostInputs s := by
  unfold afterInstr
  split_ifs
  · exact hostInputs_completeCycle s
  · rfl

theorem hostInputs_exec {i : Instr} {s t : State} (h : exec i s = .next t) : hostInputs t = hostInputs s := by
  obtain ⟨hkey, hlast, -, -, hstop, -, -⟩ := exec_sameFrame h
  rw [hostInputs, hkey, hlast, hstop, hostInputs]

theorem hostInputs_coreStep {s t : State} (h : coreStep s = .next t) : hostInputs t = hostInputs s := by
  obtain ⟨-, hcycle⟩ | ⟨-, hwait⟩ := coreStep_cases h
  · obtain ⟨-, rfl⟩ | ⟨-, -, rfl⟩ | ⟨-, -, w, -, ⟨e, -, rfl⟩ | ⟨i, u, -, hexec, rfl⟩⟩ := cycle_cases hcycle
    · rfl
    · rfl
    · rw [hostInputs_completeCycle, invalidInstruction_eq]
      rfl
    · rw [hostInputs_afterInstr, hostInputs_exec hexec]
      rfl
  · obtain ⟨-, rfl⟩ | ⟨-, -, rfl⟩ | ⟨-, -, rfl⟩ := waitStep_cases hwait
    · rfl
    · rfl
    · exact hostInputs_completeCycle _

/-- Settles O52, by `hostInputs_coreStep`. -/
theorem coreNeverWritesTheHostsInputs : Obligations.CoreNeverWritesTheHostsInputs := by
  intro s t h
  have hinputs := hostInputs_coreStep h
  simp only [hostInputs, Prod.mk.injEq] at hinputs
  exact hinputs

/-! The outbox (20_memory.md section 4). -/

/-- Events are only added, at the end. -/
def OutboxGrows (s t : State) : Prop := ∃ new, t.outbox = s.outbox ++ new

theorem outboxGrows_of_eq {s t : State} (h : t.outbox = s.outbox) : OutboxGrows s t :=
  ⟨[], by rw [h, List.append_nil]⟩

theorem OutboxGrows.trans {s t u : State} (h : OutboxGrows s t) (h' : OutboxGrows t u) : OutboxGrows s u := by
  obtain ⟨new, hnew⟩ := h
  obtain ⟨new', hnew'⟩ := h'
  exact ⟨new ++ new', by rw [hnew', hnew, List.append_assoc]⟩

theorem outboxGrows_fatal (k : FatalKind) (p o : Word16) (m : Option Nat) (s : State) :
    OutboxGrows s (fatal k p o m s) := ⟨_, fatal_outbox k p o m s⟩

theorem outboxGrows_invalidInstruction (p w : Word16) (s : State) :
    OutboxGrows s (invalidInstruction p w s) := by
  unfold invalidInstruction
  split_ifs
  · exact ⟨_, rfl⟩
  · exact outboxGrows_of_eq rfl

theorem outboxGrows_completeCycle (s : State) : OutboxGrows s (completeCycle s) := by
  have hcyc := s.cyc.isLt
  by_cases hcount : s.cyc.val < 9
  · exact outboxGrows_of_eq (by rw [completeCycle_count s hcount])
  · rw [completeCycle_tick s (by omega)]
    unfold paintCheck
    split_ifs
    · exact ⟨_, rfl⟩
    · exact outboxGrows_of_eq rfl

theorem outboxGrows_afterInstr (s : State) : OutboxGrows s (afterInstr s) := by
  unfold afterInstr
  split_ifs
  · exact outboxGrows_completeCycle s
  · exact outboxGrows_of_eq rfl

theorem outboxGrows_exec {i : Instr} {s t : State} (h : exec i s = .next t) : OutboxGrows s t := by
  obtain ⟨k, m, -, rfl⟩ | ⟨x, -, rfl⟩ | hframe := exec_cases h
  · exact outboxGrows_fatal _ _ _ _ _
  · exact outboxGrows_of_eq rfl
  · exact outboxGrows_of_eq (hframe .outbox not_false)

theorem outboxGrows_coreStep {s t : State} (h : coreStep s = .next t) : OutboxGrows s t := by
  obtain ⟨-, hcycle⟩ | ⟨-, hwait⟩ := coreStep_cases h
  · obtain ⟨-, rfl⟩ | ⟨-, -, rfl⟩ | ⟨-, -, w, -, ⟨e, -, rfl⟩ | ⟨i, u, -, hexec, rfl⟩⟩ := cycle_cases hcycle
    · exact outboxGrows_of_eq rfl
    · exact outboxGrows_fatal _ _ _ _ s.drawn
    · exact (outboxGrows_invalidInstruction _ w (latch w s)).trans (outboxGrows_completeCycle _)
    · exact (outboxGrows_exec hexec).trans (outboxGrows_afterInstr u)
  · obtain ⟨-, rfl⟩ | ⟨-, -, rfl⟩ | ⟨-, -, rfl⟩ := waitStep_cases hwait
    · exact outboxGrows_of_eq rfl
    · exact outboxGrows_of_eq rfl
    · exact outboxGrows_completeCycle _

/-- Settles O53: `outboxGrows_coreStep`, and the host's taking is the tail of the outbox. -/
theorem eventsAreDeliveredInOrder : Obligations.EventsAreDeliveredInOrder := by
  refine ⟨fun s t => outboxGrows_coreStep, fun s e later rest hout hs => ?_⟩
  refine ⟨_, step_of_hostDue hs, congrArg List.tail hout, ?_⟩
  intro p hp
  cases p with
  | outbox => exact absurd (.inl rfl) hp
  | schedule => exact absurd (.inr rfl) hp
  | _ => rfl

/-! The run state and the stop request across steps (60_exceptions.md section 2). -/

/-- No host step but `Reset` writes the run state. -/
theorem envStep_run {e : EnvStep} {s t : State} (h : envStep e s = .next t) (he : ∀ rom, e ≠ .reset rom) :
    t.run = s.run := by
  obtain ⟨k, -, rfl⟩ | ⟨k, -, rfl⟩ | ⟨-, rfl⟩ | ⟨rom, rfl, -, -⟩ | ⟨-, rfl⟩ := envStep_cases h
  · rfl
  · rfl
  · rfl
  · exact absurd rfl (he rom)
  · rfl

/-- No host step but `Reset` withdraws a stop request. -/
theorem envStep_stopReq {e : EnvStep} {s t : State} (h : envStep e s = .next t)
    (he : ∀ rom, e ≠ .reset rom) (hs : s.stopReq = true) : t.stopReq = true := by
  obtain ⟨k, -, rfl⟩ | ⟨k, -, rfl⟩ | ⟨-, rfl⟩ | ⟨rom, rfl, -, -⟩ | ⟨-, rfl⟩ := envStep_cases h
  · exact hs
  · exact hs
  · rfl
  · exact absurd rfl (he rom)
  · exact hs

/-- A step that is no `Reset` is the core's or a host step other than `Reset`. -/
theorem step_cases_of_not_reset {s t : State} (h : step s = .next t)
    (hs : ∀ rom rest, s.schedule ≠ .host (.reset rom) :: rest) :
    (∃ rest, coreStep { s with schedule := rest } = .next t) ∨
    (∃ e rest, (∀ rom, e ≠ .reset rom) ∧ envStep e { s with schedule := rest } = .next t) := by
  obtain ⟨s', hdue, hcore⟩ | ⟨e, rest, hdue, henv⟩ := step_cases h
  · exact .inl ⟨s'.schedule, eq_of_coreDue hdue ▸ hcore⟩
  · exact .inr ⟨e, rest, fun rom he => hs rom rest (he ▸ hdue), henv⟩

/-- Settles O45: the core has no step once halted, and no host step but `Reset` writes the run state. -/
theorem onlyResetLeavesHalted : Obligations.OnlyResetLeavesHalted := by
  intro s t c hrun h hs
  obtain ⟨rest, hcore⟩ | ⟨e, rest, he, henv⟩ := step_cases_of_not_reset h hs
  · obtain ⟨hrunning, -⟩ | ⟨hwaiting, -⟩ := coreStep_cases hcore
    · cases hrun.symm.trans hrunning
    · cases hrun.symm.trans hwaiting
  · exact (envStep_run henv he).trans hrun

/-- Settles O57: the core writes no input of the host's, and no host step but `Reset` withdraws the
request. -/
theorem stopRequestIsSticky : Obligations.StopRequestIsSticky := by
  intro s t hstop h hs
  obtain ⟨rest, hcore⟩ | ⟨e, rest, he, henv⟩ := step_cases_of_not_reset h hs
  · obtain ⟨-, -, hsame⟩ := coreNeverWritesTheHostsInputs _ _ hcore
    exact hsame.trans hstop
  · exact envStep_stopReq henv he hstop

end Sys2Proof.Machine
end

section
/-! The core's step in each of its cases, as one equation each (40_cycle.md R130 to R138). -/

namespace Sys2Proof.Machine

open Sys2Proof.Safety

section
variable {s s' : State}

theorem coreStep_of_running (hrun : s.run = .running) : coreStep s = cycle s := by
  rw [coreStep, hrun]

theorem coreStep_of_waitKey (hrun : s.run = .waitKey) : coreStep s = waitStep s := by
  rw [coreStep, hrun]

theorem step_of_running (hdue : CoreDue s s') (hrun : s'.run = .running) : step s = cycle s' :=
  (step_of_coreDue hdue).trans (coreStep_of_running hrun)

theorem step_of_waitKey (hdue : CoreDue s s') (hrun : s'.run = .waitKey) : step s = waitStep s' :=
  (step_of_coreDue hdue).trans (coreStep_of_waitKey hrun)

theorem cycle_of_stop (hstop : s.stopReq = true) : cycle s = .next (s.setRun (.halted .stopped)) :=
  if_pos hstop

theorem cycle_of_fetch {w : Word16} (hstop : s.stopReq = false) (hfetch : fetch s = .ok w) :
    cycle s = runWord w (latch w s) := by
  rw [cycle, if_neg (Bool.eq_false_iff.mp hstop), hfetch]

theorem cycle_of_fetchFault {a : Nat} (hstop : s.stopReq = false) (hfetch : fetch s = .error a) :
    cycle s = .next (fetchFault a s) := by
  rw [cycle, if_neg (Bool.eq_false_iff.mp hstop), hfetch]

theorem cycle_of_inside (hstop : s.stopReq = false) (hpc : s.pc.toNat ≤ 4094) :
    cycle s =
      runWord (s.peek s.pc.toNat ++ s.peek (s.pc.toNat + 1))
        (latch (s.peek s.pc.toNat ++ s.peek (s.pc.toNat + 1)) s) :=
  cycle_of_fetch hstop (fetch_inside s (by omega))

theorem cycle_of_outside (hstop : s.stopReq = false) (hpc : 4095 ≤ s.pc.toNat) :
    cycle s = .next (fetchFault (max s.pc.toNat 4096) s) :=
  cycle_of_fetchFault hstop (fetch_outside s (by omega))

theorem runWord_of_ok {w : Word16} {i : Instr} {t : State} (hdecode : decode w = .ok i)
    (hexec : exec i s = .next t) : runWord w s = .next (afterInstr t) := by
  simp only [runWord, hdecode, hexec]
  rfl

theorem runWord_of_error {w : Word16} {e : DecodeError} (hdecode : decode w = .error e) :
    runWord w s = .next (completeCycle (invalidInstruction (s.pc - 2) w s)) := by
  simp only [runWord, hdecode]

theorem waitStep_of_stop (hstop : s.stopReq = true) : waitStep s = .next (s.setRun (.halted .stopped)) :=
  if_pos hstop

theorem waitStep_of_free (hstop : s.stopReq = false) (hfree : heldCount s = 0) : waitStep s = .next s :=
  (if_neg (Bool.eq_false_iff.mp hstop)).trans (if_pos hfree)

theorem waitStep_of_held (hstop : s.stopReq = false) (hheld : heldCount s ≠ 0) :
    waitStep s = .next (completeCycle ((s.setV (fieldX s.ir) (s.lastKey.setWidth 8)).setRun .running)) :=
  (if_neg (Bool.eq_false_iff.mp hstop)).trans (if_neg hheld)

end

end Sys2Proof.Machine
end

section
/-! A change of the sound timer passes through every operation of the core unseen (10_state.md section 2, the
spec's decision D13): two runs that differ in `ST`, and O55. -/

namespace Sys2Proof.Machine

open Sys2Proof.Safety

/-- The state with another value of `ST`. -/
def State.withSt (b : Byte) (s : State) : State := { s with st := b }

/-! Memory. -/

theorem readBytes_withSt (b : Byte) (s : State) (a n : Nat) :
    readBytes (s.withSt b) a n = readBytes s a n := by
  induction n generalizing a with
  | zero => rfl
  | succ n ih => exact congrArg (s.peek a :: ·) (ih (a + 1))

theorem writeBytes_withSt (b : Byte) (a : Nat) (bs : List Byte) (s : State) :
    writeBytes a bs (s.withSt b) = (writeBytes a bs s).withSt b := by
  induction bs generalizing a s with
  | nil => rfl
  | cons c bs ih => exact ih (a + 1) (s.poke a c)

theorem loadRegisters_withSt (b : Byte) (base n : Nat) (s : State) :
    loadRegisters base n (s.withSt b) = (loadRegisters base n s).withSt b := by
  induction n with
  | zero => rfl
  | succ n ih => rw [loadRegisters, loadRegisters, ih]; rfl

/-! Instructions. -/

theorem skipIf_withSt (b : Byte) (c : Bool) (s : State) : skipIf c (s.withSt b) = (skipIf c s).withSt b := by
  cases c <;> rfl

/-- `u` is `t` but for the value of `ST`. -/
def SoundTwin (t u : State) : Prop := ∃ b, u = t.withSt b

/-- No instruction's meaning reads `ST`; `Fx18` writes the same byte in both runs. -/
theorem exec_withSt (b : Byte) {i : Instr} {s t : State} (h : exec i s = .next t) :
    ∃ u, exec i (s.withSt b) = .next u ∧ SoundTwin t u := by
  cases i with
  | ret =>
    cases (execRet_eq s).symm.trans h
    refine ⟨_, execRet_eq _, b, ?_⟩
    rw [apply_ite (State.withSt b)]
    rfl
  | call nnn =>
    cases (execCall_eq nnn s).symm.trans h
    refine ⟨_, execCall_eq nnn _, b, ?_⟩
    rw [apply_dite (State.withSt b)]
    rfl
  | drw x y n =>
    cases (execDrw_eq x y n s).symm.trans h
    refine ⟨_, execDrw_eq x y n _, b, ?_⟩
    rw [apply_ite (State.withSt b), readBytes_withSt]
    rfl
  | ldB x =>
    cases (execLdB_eq x s).symm.trans h
    refine ⟨_, execLdB_eq x _, b, ?_⟩
    rw [apply_ite (State.withSt b), writeBytes_withSt]
    rfl
  | stRegs x =>
    cases (execStRegs_eq x s).symm.trans h
    refine ⟨_, execStRegs_eq x _, b, ?_⟩
    rw [apply_ite (State.withSt b), writeBytes_withSt]
    rfl
  | ldRegs x =>
    cases (execLdRegs_eq x s).symm.trans h
    refine ⟨_, execLdRegs_eq x _, b, ?_⟩
    rw [apply_ite (State.withSt b), loadRegisters_withSt]
    rfl
  | ldVxK x =>
    cases (execLdVxK_eq x s).symm.trans h
    refine ⟨_, execLdVxK_eq x _, b, ?_⟩
    rw [apply_ite (State.withSt b)]
    rfl
  | seImm x kk | sneImm x kk | seReg x y | sneReg x y | skp x | sknp x =>
    cases h
    exact ⟨_, rfl, b, skipIf_withSt b _ s⟩
  | ldStVx x => cases h; exact ⟨_, rfl, s.getV x, rfl⟩
  | _ => cases h; exact ⟨_, rfl, b, rfl⟩

/-! The core's steps: the tick counts both timers down, each by itself. -/

theorem paintCheck_withSt (b : Byte) (s : State) : paintCheck (s.withSt b) = (paintCheck s).withSt b := by
  unfold paintCheck
  rw [apply_ite (State.withSt b)]
  rfl

theorem SoundTwin.completeCycle {t u : State} (h : SoundTwin t u) :
    SoundTwin (completeCycle t) (completeCycle u) := by
  obtain ⟨b, rfl⟩ := h
  have hcyc := t.cyc.isLt
  by_cases hcount : t.cyc.val < 9
  · rw [completeCycle_count t hcount]
    exact ⟨b, completeCycle_count (t.withSt b) hcount⟩
  · have htick : t.cyc.val = 9 := by omega
    rw [completeCycle_tick t htick, completeCycle_tick (t.withSt b) htick]
    exact ⟨countDown b, paintCheck_withSt (countDown b)
      { t with cyc := 0, dt := countDown t.dt, st := countDown t.st }⟩

theorem SoundTwin.afterInstr {t u : State} (h : SoundTwin t u) : SoundTwin (afterInstr t) (afterInstr u) := by
  have hrun : u.run = t.run := by
    obtain ⟨b, rfl⟩ := h
    rfl
  unfold Machine.afterInstr
  rw [hrun]
  split_ifs
  · exact h.completeCycle
  · exact h

theorem invalidInstruction_withSt (b : Byte) (p w : Word16) (s : State) :
    invalidInstruction p w (s.withSt b) = (invalidInstruction p w s).withSt b := by
  unfold invalidInstruction
  rw [apply_ite (State.withSt b)]
  rfl

theorem runWord_withSt (b : Byte) {w : Word16} {s t : State} (h : runWord w s = .next t) :
    ∃ u, runWord w (s.withSt b) = .next u ∧ SoundTwin t u := by
  cases hdecode : decode w with
  | error e =>
    cases (runWord_of_error hdecode).symm.trans h
    exact ⟨_, runWord_of_error hdecode, SoundTwin.completeCycle ⟨b, invalidInstruction_withSt b _ w s⟩⟩
  | ok i =>
    obtain ⟨t', hexec⟩ := exec_answers i s
    cases (runWord_of_ok hdecode hexec).symm.trans h
    obtain ⟨u', hexec', htwin⟩ := exec_withSt b hexec
    exact ⟨_, runWord_of_ok hdecode hexec', htwin.afterInstr⟩

theorem latch_withSt (b : Byte) (w : Word16) (s : State) :
    latch w (s.withSt b) = (latch w s).withSt b := rfl

theorem cycle_withSt (b : Byte) {s t : State} (h : cycle s = .next t) :
    ∃ u, cycle (s.withSt b) = .next u ∧ SoundTwin t u := by
  cases hstop : s.stopReq with
  | true =>
    cases (cycle_of_stop hstop).symm.trans h
    exact ⟨_, cycle_of_stop hstop, b, rfl⟩
  | false =>
    cases hfetch : fetch s with
    | error a =>
      cases (cycle_of_fetchFault hstop hfetch).symm.trans h
      exact ⟨_, cycle_of_fetchFault (s := s.withSt b) hstop hfetch, b, rfl⟩
    | ok w =>
      rw [cycle_of_fetch hstop hfetch] at h
      rw [cycle_of_fetch (s := s.withSt b) hstop hfetch, latch_withSt]
      exact runWord_withSt b h

theorem waitStep_withSt (b : Byte) {s t : State} (h : waitStep s = .next t) :
    ∃ u, waitStep (s.withSt b) = .next u ∧ SoundTwin t u := by
  obtain ⟨hstop, rfl⟩ | ⟨hstop, hfree, rfl⟩ | ⟨hstop, hheld, rfl⟩ := waitStep_cases h
  · exact ⟨_, waitStep_of_stop hstop, b, rfl⟩
  · exact ⟨_, waitStep_of_free hstop hfree, b, rfl⟩
  · exact ⟨_, waitStep_of_held hstop hheld, SoundTwin.completeCycle ⟨b, rfl⟩⟩

theorem coreStep_withSt (b : Byte) {s t : State} (h : coreStep s = .next t) :
    ∃ u, coreStep (s.withSt b) = .next u ∧ SoundTwin t u := by
  obtain ⟨hrun, hcycle⟩ | ⟨hrun, hwait⟩ := coreStep_cases h
  · rw [coreStep_of_running (s := s.withSt b) hrun]
    exact cycle_withSt b hcycle
  · rw [coreStep_of_waitKey (s := s.withSt b) hrun]
    exact waitStep_withSt b hwait

/-! The host's steps. -/

theorem resetWith_withSt (b : Byte) (rom : List Byte) (s : State) :
    resetWith rom (s.withSt b) = resetWith rom s := rfl

theorem withSt_self (s : State) : s = s.withSt s.st := rfl

/-- `Reset` installs its own `ST`; every other host step leaves it. -/
theorem envStep_withSt (b : Byte) {e : EnvStep} {s t : State} (h : envStep e s = .next t) :
    ∃ u, envStep e (s.withSt b) = .next u ∧ SoundTwin t u := by
  obtain ⟨k, rfl, rfl⟩ | ⟨k, rfl, rfl⟩ | ⟨rfl, rfl⟩ | ⟨rom, rfl, hlen, rfl⟩ | ⟨rfl, rfl⟩ := envStep_cases h
  · exact ⟨_, rfl, b, rfl⟩
  · exact ⟨_, rfl, b, rfl⟩
  · exact ⟨_, rfl, b, rfl⟩
  · refine ⟨resetWith rom (s.withSt b), if_pos hlen, (resetWith rom s).st, ?_⟩
    rw [resetWith_withSt]
    exact withSt_self _
  · exact ⟨_, rfl, b, rfl⟩

/-- Settles O55: a step from the state with another `ST` answers a twin, whoever's turn it is. -/
theorem soundTimerIsUnobservable : Obligations.SoundTimerIsUnobservable := by
  intro s t b h
  obtain ⟨u, hstep, b', rfl⟩ : ∃ u, step (s.withSt b) = .next u ∧ SoundTwin t u := by
    obtain ⟨s', hdue, hcore⟩ | ⟨e, rest, hs, henv⟩ := step_cases h
    · have hdue' : CoreDue (s.withSt b) (s'.withSt b) := by
        obtain ⟨hs, rfl⟩ | ⟨rest, hs, rfl⟩ := hdue
        · exact .inl ⟨hs, rfl⟩
        · exact .inr ⟨rest, hs, rfl⟩
      rw [step_of_coreDue hdue']
      exact coreStep_withSt b hcore
    · rw [step_of_hostDue (s := s.withSt b) hs]
      exact envStep_withSt b henv
  exact ⟨b', hstep⟩

end Sys2Proof.Machine
end

section
/-! Drawing a sprite (44_display.md R221) as the toggling of a list of points: the loop over rows and columns
visits each covered point of the grid once. -/

namespace Sys2Proof.Machine

open Sys2Proof.Safety

/-- One point of the grid toggled, and whether any so far was on. -/
def togglePoint (acc : Framebuffer × Bool) (p : Nat × Nat) : Framebuffer × Bool :=
  ((setPixel acc.1 p.1 p.2).1, acc.2 || pixel acc.1 p.1 p.2)

/-- The points under the set bits of a sprite row at `(px, py)`, reduced to the grid, left to right. -/
def rowPoints (b : Byte) (px py : Nat) : List (Nat × Nat) :=
  ((List.range 8).filter (spriteBit b)).map fun c => ((px + c) % 64, py % 32)

/-- The points under the set bits of a sprite, row by row. -/
def spritePoints (px : Nat) : Nat → List Byte → List (Nat × Nat)
  | _, [] => []
  | py, b :: bs => rowPoints b px py ++ spritePoints px (py + 1) bs

/-! The loops are folds over the points. -/

theorem setPixel_mod (fb : Framebuffer) (x y : Nat) : setPixel fb (x % 64) (y % 32) = setPixel fb x y := by
  simp [setPixel, pixel_mod]

theorem drawBit_eq (b : Byte) (px py : Nat) (acc : Framebuffer × Bool) (c : Nat) :
    drawBit b px py acc c =
      if spriteBit b c then togglePoint acc ((px + c) % 64, py % 32) else acc := by
  rw [drawBit, togglePoint, setPixel_mod, pixel_mod, setPixel_was]

theorem drawRow_eq (b : Byte) (px py : Nat) (acc : Framebuffer × Bool) :
    drawRow b px py acc = (rowPoints b px py).foldl togglePoint acc := by
  rw [drawRow, rowPoints, List.foldl_map, List.foldl_filter]
  exact List.foldl_ext _ _ _ fun acc c _ => drawBit_eq b px py acc c

theorem drawSprite_eq (px py : Nat) (bs : List Byte) (acc : Framebuffer × Bool) :
    drawSprite px py bs acc = (spritePoints px py bs).foldl togglePoint acc := by
  induction bs generalizing py acc with
  | nil => rfl
  | cons b bs ih => rw [drawSprite, ih, drawRow_eq, spritePoints, List.foldl_append]

/-! Which points they are. -/

theorem mem_rowPoints {b : Byte} {px py x y : Nat} :
    (x, y) ∈ rowPoints b px py ↔
      ∃ c, c < 8 ∧ b.getLsbD (7 - c) = true ∧ (px + c) % 64 = x ∧ py % 32 = y := by
  simp [rowPoints, spriteBit_eq, and_assoc]

/-- The points of a sprite are those that it covers. -/
theorem mem_spritePoints {px py : Nat} {bs : List Byte} {x y : Nat} :
    (x, y) ∈ spritePoints px py bs ↔ Covers bs px py x y := by
  induction bs generalizing py with
  | nil => simp [spritePoints, Covers]
  | cons b bs ih =>
    rw [spritePoints, List.mem_append, mem_rowPoints, ih]
    constructor
    · rintro (⟨c, hc, hbit, hx, hy⟩ | ⟨r, hr, c, hc, hbit, hx, hy⟩)
      · exact ⟨0, Nat.succ_pos _, c, hc, hbit, hx, hy⟩
      · exact ⟨r + 1, Nat.succ_lt_succ hr, c, hc, hbit, hx, by rw [← hy]; congr 1; omega⟩
    · rintro ⟨r, hr, c, hc, hbit, hx, hy⟩
      cases r with
      | zero => exact .inl ⟨c, hc, hbit, hx, hy⟩
      | succ r => exact .inr ⟨r, Nat.lt_of_succ_lt_succ hr, c, hc, hbit, hx, by rw [← hy]; congr 1; omega⟩

theorem covers_lt {bs : List Byte} {px py x y : Nat} (h : Covers bs px py x y) : x < 64 ∧ y < 32 := by
  obtain ⟨r, -, c, -, -, rfl, rfl⟩ := h
  exact ⟨Nat.mod_lt _ (by decide), Nat.mod_lt _ (by decide)⟩

theorem nodup_rowPoints (b : Byte) (px py : Nat) : (rowPoints b px py).Nodup := by
  refine List.Nodup.map_on (fun c hc c' hc' h => ?_) (List.nodup_range.filter _)
  simp only [List.mem_filter, List.mem_range] at hc hc'
  simp only [Prod.mk.injEq] at h
  omega

/-- A sprite of at most 32 rows visits no point twice. -/
theorem nodup_spritePoints {px py : Nat} {bs : List Byte} (hlen : bs.length ≤ 32) :
    (spritePoints px py bs).Nodup := by
  induction bs generalizing py with
  | nil => exact List.nodup_nil
  | cons b bs ih =>
    rw [List.length_cons] at hlen
    refine List.Nodup.append (nodup_rowPoints b px py) (ih (by omega)) ?_
    rintro ⟨x, y⟩ hrow hrest
    obtain ⟨-, -, -, -, hy⟩ := mem_rowPoints.mp hrow
    obtain ⟨r, hr, -, -, -, -, hy'⟩ := mem_spritePoints.mp hrest
    omega

/-! What a fold over distinct points of the grid does. -/

/-- The point lies on the grid. -/
def OnGrid (p : Nat × Nat) : Prop := p.1 < 64 ∧ p.2 < 32

theorem onGrid_spritePoints {px py : Nat} {bs : List Byte} : ∀ p ∈ spritePoints px py bs, OnGrid p :=
  fun _ hp => covers_lt (mem_spritePoints.mp hp)

/-- Toggling one point of the grid. -/
theorem pixel_togglePoint (acc : Framebuffer × Bool) {p q : Nat × Nat} (hp : OnGrid p) (hq : OnGrid q) :
    pixel (togglePoint acc p).1 q.1 q.2 = if q = p then !pixel acc.1 q.1 q.2 else pixel acc.1 q.1 q.2 := by
  rw [togglePoint, pixel_setPixel, Nat.mod_eq_of_lt hp.1, Nat.mod_eq_of_lt hp.2, Nat.mod_eq_of_lt hq.1,
    Nat.mod_eq_of_lt hq.2]
  simp only [Prod.ext_iff]

/-- Each point of the list is toggled, and no other. -/
theorem pixel_foldl_togglePoint {ps : List (Nat × Nat)} (hnodup : ps.Nodup) (hgrid : ∀ p ∈ ps, OnGrid p)
    (acc : Framebuffer × Bool) {q : Nat × Nat} (hq : OnGrid q) :
    pixel (ps.foldl togglePoint acc).1 q.1 q.2 =
      if q ∈ ps then !pixel acc.1 q.1 q.2 else pixel acc.1 q.1 q.2 := by
  induction ps generalizing acc with
  | nil => rfl
  | cons p ps ih =>
    rw [List.nodup_cons] at hnodup
    rw [List.forall_mem_cons] at hgrid
    rw [List.foldl_cons, ih hnodup.2 hgrid.2, pixel_togglePoint acc hgrid.1 hq]
    by_cases hqp : q = p
    · subst hqp
      simp [hnodup.1]
    · simp [hqp]

/-- The flag says whether a point of the list was on: no toggle touches a point still to come. -/
theorem foldl_togglePoint_flag {ps : List (Nat × Nat)} (hnodup : ps.Nodup) (hgrid : ∀ p ∈ ps, OnGrid p)
    (acc : Framebuffer × Bool) :
    (ps.foldl togglePoint acc).2 = true ↔ acc.2 = true ∨ ∃ p ∈ ps, pixel acc.1 p.1 p.2 = true := by
  induction ps generalizing acc with
  | nil => simp
  | cons p ps ih =>
    rw [List.nodup_cons] at hnodup
    rw [List.forall_mem_cons] at hgrid
    have hrest : (∃ q ∈ ps, pixel (togglePoint acc p).1 q.1 q.2 = true) ↔
        ∃ q ∈ ps, pixel acc.1 q.1 q.2 = true := by
      refine exists_congr fun q => and_congr_right fun hq => ?_
      have hqp : q ≠ p := fun e => hnodup.1 (e ▸ hq)
      rw [pixel_togglePoint acc hgrid.1 (hgrid.2 q hq), if_neg hqp]
    have hflag : (togglePoint acc p).2 = (acc.2 || pixel acc.1 p.1 p.2) := rfl
    rw [List.foldl_cons, ih hnodup.2 hgrid.2, hrest, hflag, Bool.or_eq_true, List.exists_mem_cons_iff,
      or_assoc]

/-! A draw, pixel by pixel. -/

section
variable {s : State} {vx vy : Byte} {rows : List Byte}

open Classical in
/-- The framebuffer of a draw: each pixel is toggled exactly when the sprite covers it. -/
theorem pixel_drawAt (hlen : rows.length ≤ 32) {px py : Nat} (hx : px < 64) (hy : py < 32) :
    pixel (drawAt s vx vy rows).1 px py =
      if Covers rows vx.toNat vy.toNat px py then !pixel s.fb px py else pixel s.fb px py := by
  rw [drawAt, drawSprite_eq]
  refine (pixel_foldl_togglePoint (nodup_spritePoints hlen) onGrid_spritePoints _
    (q := (px, py)) ⟨hx, hy⟩).trans ?_
  simp only [mem_spritePoints]

/-- The flag of a draw: a covered pixel was on. -/
theorem drawAt_flag (hlen : rows.length ≤ 32) :
    (drawAt s vx vy rows).2 = true ↔
      ∃ px py, px < 64 ∧ py < 32 ∧ pixel s.fb px py = true ∧ Covers rows vx.toNat vy.toNat px py := by
  rw [drawAt, drawSprite_eq, foldl_togglePoint_flag (nodup_spritePoints hlen) onGrid_spritePoints]
  constructor
  · rintro (h | ⟨⟨px, py⟩, hmem, hlit⟩)
    · cases h
    · have hcov := mem_spritePoints.mp hmem
      exact ⟨px, py, (covers_lt hcov).1, (covers_lt hcov).2, hlit, hcov⟩
  · rintro ⟨px, py, -, -, hlit, hcov⟩
    exact .inr ⟨(px, py), mem_spritePoints.mpr hcov, hlit⟩

end

end Sys2Proof.Machine
end

section
/-! The pixel engine's instructions (44_display.md R220, R221); O31, O32 and O33. -/

namespace Sys2Proof.Machine

open Sys2Proof.Safety

/-- Settles O31: the clear framebuffer has no lit pixel, and `setFb` raises the dirty flag. -/
theorem clearTurnsEveryPixelOff : Obligations.ClearTurnsEveryPixelOff :=
  fun s => ⟨by decide, s.setFb clearFb, rfl, pixel_clearFb, rfl, unchanged_setFb s clearFb⟩

/-- The rows that `Dxyn` draws. -/
def spriteRows (s : State) (n : Nibble) : List Byte := (List.range n.toNat).map fun r => s.peek (effAddr s r)

theorem readBytes_eq_map (s : State) (a n : Nat) :
    readBytes s a n = (List.range n).map fun k => s.peek (a + k) := by
  refine List.ext_getElem (by simp) fun k hk _ => ?_
  rw [readBytes_length] at hk
  have hget := readBytes_getD s a n k hk
  simp_all [List.getD_eq_getElem?_getD]

theorem spriteRows_length_le (s : State) (n : Nibble) : (spriteRows s n).length ≤ 32 := by
  have hn := n.isLt
  simp [spriteRows]
  omega

/-- The framebuffer and the collision flag after a draw that does not fault. -/
def drawResult (x y n : Nibble) (s : State) : Framebuffer × Bool :=
  drawAt s (s.getV x) (s.getV y) (spriteRows s n)

theorem exec_drw_of_inside {x y n : Nibble} {s : State}
    (h : n.toNat = 0 ∨ s.i.toNat + n.toNat - 1 ≤ 4095) :
    exec (.drw x y n) s =
      .next ((s.setV vF (flagByte (drawResult x y n s).2)).setFb (drawResult x y n s).1) := by
  refine (execDrw_eq x y n s).trans ?_
  rw [if_pos (by omega), readBytes_eq_map]
  rfl

theorem exec_drw_of_outside {x y n : Nibble} {s : State} (hn : 0 < n.toNat)
    (h : 4095 < s.i.toNat + n.toNat - 1) :
    exec (.drw x y n) s = .next (raiseFatal .outOfBounds (some (max s.i.toNat 4096)) s) := by
  refine (execDrw_eq x y n s).trans ?_
  rw [if_neg (by omega)]

theorem flagByte_eq_one_iff (f : Bool) : flagByte f = 1 ↔ f = true := by cases f <;> decide

/-- Settles O32: `pixel_drawAt` and `drawAt_flag` on one side of the bounds check, the exception on the
other. -/
theorem drawTogglesExactlyTheCoveredPixels : Obligations.DrawTogglesExactlyTheCoveredPixels := by
  intro x y n s
  have hlen := spriteRows_length_le s n
  refine ⟨decode_layoutXYN_drw x y n, fun hspan => ?_, fun hn hspan =>
    takesFatal_of_eq (exec_drw_of_outside hn hspan)⟩
  refine ⟨_, exec_drw_of_inside hspan, fun px py hx hy => ?_, fun hlit => ?_, fun hlit => ?_, rfl, ?_⟩
  · rw [State.setFb_fb, drawResult, pixel_drawAt hlen hx hy]
    show _ ↔ ¬ (_ ↔ Covers (spriteRows s n) _ _ px py)
    split_ifs with hcov <;> simp [hcov]
  · have hflag : (drawResult x y n s).2 = true := (drawAt_flag hlen).mpr hlit
    rw [State.setFb_getV, State.setV_getV_same, hflag]
    rfl
  · have hflag : (drawResult x y n s).2 = false :=
      Bool.eq_false_iff.mpr fun h => hlit ((drawAt_flag hlen).mp h)
    rw [State.setFb_getV, State.setV_getV_same, hflag]
    rfl
  · exact ((unchanged_setV s vF _).mono fun _ => .inl).trans ((unchanged_setFb _ _).mono fun _ => .inr)

/-- Settles O33: the second draw toggles the same points back, and finds lit the covered pixels that were
off. -/
theorem drawingTwiceRestoresTheFrame : Obligations.DrawingTwiceRestoresTheFrame := by
  intro x y x' y' n s t t' u rows spanInside hspan hdraw hfb hrows hspan' hx hy hdraw'
  have hlen := spriteRows_length_le s n
  cases (exec_drw_of_inside hspan).symm.trans hdraw
  cases (exec_drw_of_inside hspan').symm.trans hdraw'
  have hresult : drawResult x' y' n t' = drawAt t' (s.getV x) (s.getV y) (spriteRows s n) := by
    rw [drawResult, hx, hy]
    exact congrArg _ hrows
  have hfirst : ∀ {px py}, px < 64 → py < 32 → pixel t'.fb px py = _ := fun hpx hpy =>
    (congrArg (pixel · _ _) hfb).trans (pixel_drawAt hlen hpx hpy)
  rw [hresult]
  constructor
  · refine framebuffer_ext fun px py hpx hpy => ?_
    rw [State.setFb_fb, pixel_drawAt hlen hpx hpy, hfirst hpx hpy]
    split_ifs
    · exact Bool.not_not _
    · rfl
  · rw [State.setFb_getV, State.setV_getV_same, flagByte_eq_one_iff, drawAt_flag hlen]
    refine exists₂_congr fun px py => and_congr_right fun hpx => and_congr_right fun hpy => ?_
    refine and_congr_left fun hcov => ?_
    rw [hfirst hpx hpy, if_pos hcov]
    simp

end Sys2Proof.Machine
end

section
/-! The memory transfers (43_index_memory.md R203 to R205): each does its work when its span is inside Memory
and takes the exception otherwise. O7, O28, O29 and O30. -/

namespace Sys2Proof.Machine

open Sys2Proof.Safety

section
variable {x : Nibble} {s : State}

theorem exec_ldB_of_inside (h : s.i.toNat + 2 ≤ 4095) :
    exec (.ldB x) s = .next (writeBytes s.i.toNat (decimalDigits (s.getV x)) s) :=
  (execLdB_eq x s).trans (by rw [if_pos (by omega)])

theorem exec_ldB_of_outside (h : 4095 < s.i.toNat + 2) :
    exec (.ldB x) s = .next (raiseFatal .outOfBounds (some (max s.i.toNat 4096)) s) :=
  (execLdB_eq x s).trans (by rw [if_neg (by omega)])

theorem exec_stRegs_of_inside (h : s.i.toNat + x.toNat ≤ 4095) :
    exec (.stRegs x) s = .next (writeBytes s.i.toNat (registersUpTo s x) s) :=
  (execStRegs_eq x s).trans (by rw [if_pos (by omega)])

theorem exec_stRegs_of_outside (h : 4095 < s.i.toNat + x.toNat) :
    exec (.stRegs x) s = .next (raiseFatal .outOfBounds (some (max s.i.toNat 4096)) s) :=
  (execStRegs_eq x s).trans (by rw [if_neg (by omega)])

theorem exec_ldRegs_of_inside (h : s.i.toNat + x.toNat ≤ 4095) :
    exec (.ldRegs x) s = .next (loadRegisters s.i.toNat (x.toNat + 1) s) :=
  (execLdRegs_eq x s).trans (by rw [if_pos (by omega)])

theorem exec_ldRegs_of_outside (h : 4095 < s.i.toNat + x.toNat) :
    exec (.ldRegs x) s = .next (raiseFatal .outOfBounds (some (max s.i.toNat 4096)) s) :=
  (execLdRegs_eq x s).trans (by rw [if_neg (by omega)])

end

/-- The byte at an address inside a stored block. -/
theorem writeBytes_peek_inside (a : Nat) (bs : List Byte) (s : State) {k : Nat} (hk : k < bs.length) :
    (writeBytes a bs s).peek (a + k) = bs[k] := by
  rw [writeBytes_peek, if_pos ⟨Nat.le_add_right a k, Nat.add_lt_add_left hk a⟩, Nat.add_sub_cancel_left]
  exact List.getD_eq_getElem bs 0 hk

/-- Settles O28: the block stored is the three digits. -/
theorem decimalDigitsAreStored : Obligations.DecimalDigitsAreStored := by
  intro x s
  refine ⟨decode_layoutXKK_ldB x, fun hspan => ?_, fun hspan => takesFatal_of_eq (exec_ldB_of_outside hspan)⟩
  have hb := (s.getV x).isLt
  have hdigit : ∀ (k : Nat) (hk : k < 3) (d : Nat), d < 256 →
      (decimalDigits (s.getV x))[k]'hk = BitVec.ofNat 8 d →
      ((writeBytes s.i.toNat (decimalDigits (s.getV x)) s).peek (effAddr s k)).toNat = d := by
    intro k hk d hd hget
    rw [effAddr, writeBytes_peek_inside _ _ s hk, hget, BitVec.toNat_ofNat, Nat.mod_eq_of_lt hd]
  refine ⟨_, exec_ldB_of_inside hspan, ?_, ?_, ?_, ?_⟩
  · exact hdigit 0 (by decide) _ (by omega) rfl
  · exact hdigit 1 (by decide) _ (by omega) rfl
  · exact hdigit 2 (by decide) _ (by omega) rfl
  · exact unchanged_writeBytes s.i.toNat (decimalDigits (s.getV x)) s

/-- Settles O29: the block stored is the registers. -/
theorem registerBlockIsStored : Obligations.RegisterBlockIsStored := by
  intro x s
  refine ⟨decode_layoutXKK_stRegs x, fun hspan => ?_, fun hspan =>
    takesFatal_of_eq (exec_stRegs_of_outside hspan)⟩
  refine ⟨_, exec_stRegs_of_inside hspan, fun r hr => ?_, (unchanged_writeBytes _ _ s).mono ?_⟩
  · have hk : r.toNat < (registersUpTo s x).length := by rw [registersUpTo_length]; omega
    rw [effAddr, writeBytes_peek_inside _ _ s hk, ← registersUpTo_getD s x r hr]
    exact (List.getD_eq_getElem _ 0 hk).symm
  · rintro p ⟨k, hk, rfl⟩
    rw [registersUpTo_length] at hk
    exact ⟨k, Nat.le_of_lt_succ hk, rfl⟩

/-- Settles O30, by what each register holds after `loadRegisters`. -/
theorem registerBlockIsLoaded : Obligations.RegisterBlockIsLoaded := by
  intro x s
  have hcount : x.toNat + 1 ≤ 16 := x.isLt
  refine ⟨decode_layoutXKK_ldRegs x, fun hspan => ?_, fun hspan =>
    takesFatal_of_eq (exec_ldRegs_of_outside hspan)⟩
  refine ⟨_, exec_ldRegs_of_inside hspan, fun r hr => ?_, (unchanged_loadRegisters _ _ s hcount).mono ?_⟩
  · rw [loadRegisters_getV _ _ s hcount, if_pos (Nat.lt_succ_of_le hr)]
    rfl
  · rintro p ⟨r, hr, rfl⟩
    exact ⟨r, Nat.le_of_lt_succ hr, rfl⟩

/-- Settles O7, by O29: the stored registers 0 and 1 are the two bytes at `pc`. -/
theorem storedBytesAreTheNextInstruction : Obligations.StoredBytesAreTheNextInstruction := by
  intro x s hx hpc hspan
  obtain ⟨-, hstored, -⟩ := registerBlockIsStored x s
  obtain ⟨t, hexec, hbytes, hframe⟩ := hstored hspan
  refine ⟨t, hexec, ?_⟩
  have hpc' : t.pc.toNat = s.i.toNat := by
    rw [hpc]
    exact congrArg BitVec.toNat (hframe .pc (by simp))
  have hbyte0 : t.peek s.i.toNat = s.getV 0 := hbytes 0 (Nat.zero_le _)
  have hbyte1 : t.peek (s.i.toNat + 1) = s.getV 1 := hbytes 1 hx
  rw [fetch_inside t (by omega), hpc', hbyte0, hbyte1]

end Sys2Proof.Machine
end

section
/-! The remaining single instructions: control transfer, shifts, the random byte, the glyph address, the keys
(41_flow.md, 42_alu.md, 43_index_memory.md, 45_keys_timers.md). -/

namespace Sys2Proof.Machine

open Sys2Proof.Safety

/-- Settles O12: both instructions answer `raiseFatal` in that case. -/
theorem stackExceptionsAreRecorded : Obligations.StackExceptionsAreRecorded :=
  fun nnn _ =>
    ⟨fun hfull => takesFatal_of_eq (exec_call_of_full nnn hfull),
     fun hempty => takesFatal_of_eq (exec_ret_of_empty hempty)⟩

/-- Settles O13: the entry popped is the one pushed, and the depth is as before. -/
theorem returnUndoesCall : Obligations.ReturnUndoesCall := by
  intro nnn s hlt
  refine ⟨_, _, exec_call_of_lt nnn hlt, exec_ret_of_pos (Nat.succ_pos _), ?_⟩
  intro p hp
  cases p with
  | stack k => exact (stackEntry_set s _ hlt s.pc s.sp k).trans (if_neg fun e => hp (congrArg _ e))
  | pc => exact (stackEntry_set s _ hlt s.pc s.sp s.sp.val).trans (if_pos rfl)
  | _ => rfl

/-- Settles O16: the sum does not wrap. -/
theorem offsetJumpAddsRegisterZero : Obligations.OffsetJumpAddsRegisterZero :=
  fun nnn s => ⟨decode_layoutNNN_jpV0 nnn, _, rfl, jpV0_target_toNat nnn (s.getV 0), unchanged_setPc s _⟩

/-- The flag of R178 as VF holds it. -/
theorem flagByte_bit0Flag_toNat (a : Byte) : (flagByte (bit0Flag a)).toNat = a.toNat % 2 := by
  rw [flagByte_toNat, bit0Flag, BitVec.getLsbD, Nat.testBit_zero]
  split_ifs <;> simp_all

/-- The flag of R180 as VF holds it. -/
theorem flagByte_bit7Flag_toNat (a : Byte) : (flagByte (bit7Flag a)).toNat = a.toNat / 128 := by
  have ha := a.isLt
  rw [flagByte_toNat, bit7Flag, BitVec.getLsbD, Nat.testBit_eq_decide_div_mod_eq]
  split_ifs <;> simp_all <;> omega

/-- Settles O23: both meanings are `writeFlagged` of the bit shifted out and the shifted byte. -/
theorem shiftsMoveOnePositionAndReportTheBit : Obligations.ShiftsMoveOnePositionAndReportTheBit :=
  fun x y _ =>
    ⟨⟨decode_layoutXYN_shr x y, writes_of_writeFlagged rfl (halve_toNat _) (flagByte_bit0Flag_toNat _)⟩,
     ⟨decode_layoutXYN_shl x y, writes_of_writeFlagged rfl (double_toNat _) (flagByte_bit7Flag_toNat _)⟩⟩

/-- Settles O24: the byte written is the drawn one under the mask. -/
theorem randomByteIsMasked : Obligations.RandomByteIsMasked := by
  intro x kk s
  refine ⟨decode_layoutXKK_rnd x kk, _, rfl, State.setV_getV_same _ _ _, fun k hk => ?_, rfl, ?_⟩
  · rw [State.setV_getV_same, BitVec.getLsbD_and, hk, Bool.and_false]
  · exact ((unchanged_drawn s).mono fun _ => .inr).trans ((unchanged_setV _ x _).mono fun _ => .inl)

theorem glyphAddr_toNat (b : Byte) : (glyphAddr b).toNat = 5 * b.toNat := by
  have hb := b.isLt
  simp only [glyphAddr, Config.fontBase, Config.glyphBytes, BitVec.toNat_ofNat]
  omega

/-- Settles O27, by `glyphAddr_toNat`. -/
theorem glyphAddressIsFiveTimesTheByte : Obligations.GlyphAddressIsFiveTimesTheByte :=
  fun x _ => ⟨decode_layoutXKK_ldF x, indexes_of_setI rfl (glyphAddr_toNat _)⟩

/-! Keys. -/

theorem isPressed_iff (s : State) (b : Byte) : isPressed s b = true ↔ KeyHeld s b := by
  unfold isPressed KeyHeld
  split_ifs with hb <;> simp [hb]

/-- Settles O34: both meanings are `skipIf` of the key query or its negation. -/
theorem keySkipsTestTheHeldKey : Obligations.KeySkipsTestTheHeldKey := by
  intro x s
  have hheld := isPressed_iff s (s.getV x)
  have hfree : isPressed s (s.getV x) = false ↔ ¬ KeyHeld s (s.getV x) := by
    rw [← hheld, Bool.not_eq_true]
  exact
    ⟨⟨decode_layoutXKK_skp x, skips_of_skipIf rfl hheld hfree⟩,
     ⟨decode_layoutXKK_sknp x, skips_of_skipIf rfl (by rw [Bool.not_eq_true', hfree])
       (by rw [Bool.not_eq_false', hheld])⟩⟩

theorem heldCount_eq_zero_iff (s : State) :
    heldCount s = 0 ↔ ∀ k : Nibble, s.key[k.toNat]'k.isLt = false := by
  rw [heldCount, List.count_eq_zero, Vector.mem_toList_iff, Vector.mem_iff_getElem]
  constructor
  · exact fun h k => Bool.eq_false_iff.mpr fun hk => h ⟨k.toNat, k.isLt, hk⟩
  · rintro h ⟨k, hlt, hk⟩
    have hfree := h (BitVec.ofNat 4 k)
    simp_all [Nat.mod_eq_of_lt hlt]

theorem heldCount_ne_zero_iff (s : State) :
    heldCount s ≠ 0 ↔ ∃ k : Nibble, s.key[k.toNat]'k.isLt = true := by
  rw [Ne, heldCount_eq_zero_iff, not_forall]
  simp only [Bool.not_eq_false]

theorem lastKey_byte_toNat (k : Nibble) : (BitVec.setWidth 8 k).toNat = k.toNat :=
  BitVec.toNat_setWidth_of_le (by decide)

/-- Settles O36, by the count of held keys. -/
theorem keyReadCompletesOrWaits : Obligations.KeyReadCompletesOrWaits := by
  intro x s
  refine ⟨decode_layoutXKK_ldVxK x, fun hheld => ?_, fun hfree => ?_⟩
  · have hexec : exec (.ldVxK x) s = .next (s.setV x (s.lastKey.setWidth 8)) :=
      (execLdVxK_eq x s).trans (by rw [if_neg ((heldCount_ne_zero_iff s).mpr hheld)])
    refine ⟨_, hexec, ?_, unchanged_setV s x _⟩
    rw [State.setV_getV_same, lastKey_byte_toNat]
  · have hexec : exec (.ldVxK x) s = .next (s.setRun .waitKey) :=
      (execLdVxK_eq x s).trans (by rw [if_pos ((heldCount_eq_zero_iff s).mpr hfree)])
    exact ⟨_, hexec, rfl, unchanged_setRun s _⟩

end Sys2Proof.Machine
end

section
/-! The core's steps and the end of a tick (40_cycle.md, 60_exceptions.md): O37 to O40 and O42 to O44. -/

namespace Sys2Proof.Machine

open Sys2Proof.Safety

theorem unchanged_latch (w : Word16) (s : State) :
    UnchangedBut (fun p => p = .ir ∨ p = .pc) s (latch w s) := by
  intro p hp
  cases p with
  | ir => exact absurd (.inl rfl) hp
  | pc => exact absurd (.inr rfl) hp
  | _ => rfl

theorem invalidInstruction_ir (pc0 w : Word16) (s : State) : (invalidInstruction pc0 w s).ir = s.ir := by
  rw [invalidInstruction_eq]

theorem invalidInstruction_outbox (pc0 w : Word16) (s : State) :
    (invalidInstruction pc0 w s).outbox =
      if s.config.diag then s.outbox ++ [.invalidReport pc0 w] else s.outbox := by
  unfold invalidInstruction
  split_ifs <;> rfl

theorem unchanged_invalidInstruction (pc0 w : Word16) (s : State) :
    UnchangedBut (fun p => p = .outbox) s (invalidInstruction pc0 w s) := by
  rw [invalidInstruction_eq]
  intro p hp
  cases p with
  | outbox => exact absurd rfl hp
  | _ => rfl

/-- Settles O37: the fetch is inside Memory, and `exec` answers. -/
theorem stepRunsTheDecodedInstruction : Obligations.StepRunsTheDecodedInstruction := by
  intro s s' i hdue hrun hstop hpc hdecode
  obtain ⟨t, hexec⟩ := exec_answers i (latch (s'.peek s'.pc.toNat ++ s'.peek (s'.pc.toNat + 1)) s')
  refine ⟨t, hexec, ?_⟩
  rw [step_of_running hdue hrun, cycle_of_inside hstop hpc, runWord_of_ok hdecode hexec]
  rfl

/-- Settles O39: the state whose cycle completes is the latched one, with the report when `DIAG` is set. -/
theorem invalidWordIsSkipped : Obligations.InvalidWordIsSkipped := by
  intro s s' e hdue hrun hstop hpc hdecode
  have hstep : step s = _ := (step_of_running hdue hrun).trans (cycle_of_inside hstop hpc)
  rw [runWord_of_error hdecode] at hstep
  have hpc0 : (latch (s'.peek s'.pc.toNat ++ s'.peek (s'.pc.toNat + 1)) s').pc - 2 = s'.pc :=
    BitVec.add_sub_cancel s'.pc 2
  rw [hpc0] at hstep
  refine ⟨_, hstep, ?_, ?_, fun hdiag => ?_, fun hdiag => ?_, ?_⟩
  · rw [invalidInstruction_eq]
    rfl
  · exact invalidInstruction_ir _ _ _
  · rw [invalidInstruction_outbox]
    exact if_neg (Bool.eq_false_iff.mp hdiag)
  · rw [invalidInstruction_ir, invalidInstruction_outbox]
    exact if_pos hdiag
  · refine ((unchanged_latch _ s').mono ?_).trans ((unchanged_invalidInstruction _ _ _).mono ?_)
    · rintro p (rfl | rfl)
      · exact .inr (.inl rfl)
      · exact .inl rfl
    · exact fun p hp => .inr (.inr hp)

/-- Settles O40: the fetch fault is a fatal exception taken before anything is latched. -/
theorem fetchOutsideMemoryHalts : Obligations.FetchOutsideMemoryHalts := by
  intro s s' hdue hrun hstop hpc
  refine ⟨_, _, (step_of_running hdue hrun).trans (cycle_of_outside hstop hpc), rfl, rfl, rfl, rfl, ?_, rfl,
    ?_⟩
  · refine congrArg some ?_
    split_ifs <;> omega
  · refine ((unchanged_drawn s').mono ?_).trans ((unchanged_fatal _ _ _ _ _).mono ?_)
    · exact fun p hp => .inr (.inr (.inr hp))
    · rintro p (hp | hp | hp)
      · exact .inl hp
      · exact .inr (.inl hp)
      · exact .inr (.inr (.inl hp))

/-- Settles O42: both kinds of core step sample the request first. -/
theorem stopRequestHaltsAtTheBoundary : Obligations.StopRequestHaltsAtTheBoundary := by
  intro s s' hdue hrun hstop
  have hstep : step s = .next (s'.setRun (.halted .stopped)) := by
    rcases hrun with hrunning | hwaiting
    · exact (step_of_running hdue hrunning).trans (cycle_of_stop hstop)
    · exact (step_of_waitKey hdue hwaiting).trans (waitStep_of_stop hstop)
  exact ⟨_, hstep, rfl, unchanged_setRun s' _⟩

/-- Settles O43, by the count of held keys. -/
theorem waitEndsWhenAKeyIsHeld : Obligations.WaitEndsWhenAKeyIsHeld := by
  intro s s' hdue hrun hstop
  have hstep := step_of_waitKey hdue hrun
  refine ⟨fun hfree => ?_, fun hheld => ?_⟩
  · exact hstep.trans (waitStep_of_free hstop ((heldCount_eq_zero_iff s').mpr hfree))
  · refine ⟨_, hstep.trans (waitStep_of_held hstop ((heldCount_ne_zero_iff s').mpr hheld)), rfl, ?_, ?_⟩
    · show (((s'.setV (fieldX s'.ir) _).setRun _).getV (fieldX s'.ir)).toNat = _
      rw [State.setRun_getV, State.setV_getV_same, lastKey_byte_toNat]
    · exact ((unchanged_setV s' (fieldX s'.ir) _).mono fun _ => .inr).trans
        ((unchanged_setRun _ _).mono fun _ => .inl)

/-- Settles O44, by the core's step in a halted state. -/
theorem haltedCoreHasNoStep : Obligations.HaltedCoreHasNoStep := by
  intro s s' c hdue hrun
  rw [step_of_coreDue hdue, coreStep, hrun]

/-! The end of a tick (60_exceptions.md section 4). -/

theorem countDown_toNat (b : Byte) : (countDown b).toNat = b.toNat - 1 := by
  unfold countDown
  split_ifs with hb
  · rw [hb]
    rfl
  · bv_omega

theorem paintCheck_dirty (s : State) : (paintCheck s).dirty = false := by
  unfold paintCheck
  split_ifs with hdirty
  · rfl
  · exact Bool.eq_false_iff.mpr hdirty

theorem paintCheck_outbox_of_clean {s : State} (h : s.dirty = false) :
    (paintCheck s).outbox = s.outbox := by
  rw [paintCheck, if_neg (Bool.eq_false_iff.mp h)]

theorem paintCheck_outbox_of_dirty {s : State} (h : s.dirty = true) :
    (paintCheck s).outbox = s.outbox ++ [.paint (litPixels s.fb) Config.fbW Config.fbH] := by
  rw [paintCheck, if_pos h]

/-- Settles O38: before the tenth cycle only the counter moves, and the tenth counts both timers down and
checks the frame. -/
theorem tenthCycleEndsTheTick : Obligations.TenthCycleEndsTheTick := by
  intro s
  refine ⟨fun hcount => ?_, fun htick => ?_⟩
  · rw [completeCycle_count s hcount]
    refine ⟨rfl, fun p hp => ?_⟩
    cases p with
    | cyc => exact absurd rfl hp
    | _ => rfl
  · have hframe := unchanged_completeCycle s
    rw [completeCycle_tick s htick] at hframe ⊢
    refine ⟨?_, ?_, ?_, paintCheck_dirty _, fun hclean => ?_, fun hdirty => ?_, hframe⟩
    · rw [paintCheck_eq]
      rfl
    · rw [paintCheck_eq]
      exact countDown_toNat s.dt
    · rw [paintCheck_eq]
      exact countDown_toNat s.st
    · exact paintCheck_outbox_of_clean hclean
    · exact ⟨litPixels s.fb, paintCheck_outbox_of_dirty hdirty, fun _ _ _ _ => rfl⟩

end Sys2Proof.Machine
end

section
/-! The host's steps (60_exceptions.md section 5, 70_reset_and_hazards.md R310): O46 to O49 and O56. -/

namespace Sys2Proof.Machine

open Sys2Proof.Safety

theorem key_set (keys : Vector Bool 16) (k j : Nibble) (b : Bool) :
    (keys.set k.toNat b k.isLt)[j.toNat]'j.isLt = if j = k then b else keys[j.toNat]'j.isLt := by
  rw [Vector.getElem_set]
  exact if_congr (BitVec.toNat_inj.trans eq_comm) rfl rfl

theorem unchanged_keyDown (k : Nibble) (s : State) (rest : List Turn) :
    UnchangedBut (fun p => p = .key ∨ p = .lastKey ∨ p = .schedule) s
      (keyDown k { s with schedule := rest }) := by
  intro p hp
  cases p with
  | key => exact absurd (.inl rfl) hp
  | lastKey => exact absurd (.inr (.inl rfl)) hp
  | schedule => exact absurd (.inr (.inr rfl)) hp
  | _ => rfl

theorem unchanged_keyUp (k : Nibble) (s : State) (rest : List Turn) :
    UnchangedBut (fun p => p = .key ∨ p = .schedule) s (keyUp k { s with schedule := rest }) := by
  intro p hp
  cases p with
  | key => exact absurd (.inl rfl) hp
  | schedule => exact absurd (.inr rfl) hp
  | _ => rfl

theorem unchanged_requestStop (s : State) (rest : List Turn) :
    UnchangedBut (fun p => p = .stopReq ∨ p = .schedule) s (requestStop { s with schedule := rest }) := by
  intro p hp
  cases p with
  | stopReq => exact absurd (.inl rfl) hp
  | schedule => exact absurd (.inr rfl) hp
  | _ => rfl

/-- Settles O46: each key step stores one flag. -/
theorem keyStepsWriteOneFlag : Obligations.KeyStepsWriteOneFlag :=
  fun s k rest =>
    ⟨fun hs => ⟨_, step_of_hostDue hs, rfl, fun j => key_set s.key k j true, rfl, unchanged_keyDown k s rest⟩,
     fun hs => ⟨_, step_of_hostDue hs, rfl, fun j => key_set s.key k j false, unchanged_keyUp k s rest⟩⟩

/-- Settles O56, by the host's step in its frame. -/
theorem stopRequestSetsTheBit : Obligations.StopRequestSetsTheBit :=
  fun s rest hs => ⟨_, step_of_hostDue hs, rfl, rfl, unchanged_requestStop s rest⟩

/-! Reset. -/

/-- Memory after `Reset`: the image over the background. -/
theorem resetWith_peek (rom : List Byte) (s : State) (a : Nat) :
    (resetWith rom s).peek a =
      if 0x200 ≤ a ∧ a < 0x200 + rom.length then rom.getD (a - 0x200) 0 else background s.config a :=
  writeBytes_peek _ _ _ _

theorem resetWith_peek_image (rom : List Byte) (s : State) {k : Nat} (hk : k < rom.length) :
    (resetWith rom s).peek (0x200 + k) = rom[k] :=
  writeBytes_peek_inside _ _ _ hk

theorem resetWith_peek_font (rom : List Byte) (s : State) {a : Nat} (ha : a < 80) :
    (resetWith rom s).peek a = s.config.font[a] := by
  rw [resetWith_peek, if_neg (by omega), background, dif_pos ha]

theorem resetWith_peek_fill (rom : List Byte) (s : State) {a : Nat} (ha : 80 ≤ a)
    (hout : a < 0x200 ∨ 0x200 + rom.length ≤ a) : (resetWith rom s).peek a = 0 := by
  rw [resetWith_peek, if_neg (by omega), background, dif_neg (by omega)]

theorem reset_getV (r : Nibble) : State.reset.getV r = 0 := Vector.getElem_replicate _

theorem reset_pixel (px py : Nat) : pixel State.reset.fb px py = false := pixel_clearFb px py

theorem reset_key (k : Nibble) : State.reset.key[k.toNat]'k.isLt = false := Vector.getElem_replicate _

/-- Settles O47: memory by `resetWith_peek`, and every other element is that of the reset state. -/
theorem resetInstallsTheImage : Obligations.ResetInstallsTheImage := by
  intro s rom rest hs hlen
  have hstep : step s = .next (resetWith rom { s with schedule := rest }) :=
    (step_of_hostDue hs).trans (if_pos hlen)
  refine ⟨_, hstep, fun a => resetWith_peek_font rom _, fun k => resetWith_peek_image rom _,
    fun a ha _ => resetWith_peek_fill rom _ ha, ?_⟩
  rw [resetWith_eq]
  exact ⟨reset_getV, rfl, rfl, rfl, rfl, rfl, reset_pixel, rfl, reset_key, rfl, rfl, rfl, rfl⟩

/-- Settles O48: the image fails the length check. -/
theorem overlongImageIsRefused : Obligations.OverlongImageIsRefused :=
  fun _ _ _ hs hlen => (step_of_hostDue hs).trans (if_neg (Nat.not_le.mpr hlen))

/-- Settles O49: the reset state is what `Reset` of the empty image leaves. -/
theorem resetStateHasTheStatedValues : Obligations.ResetStateHasTheStatedValues :=
  ⟨rfl, reset_getV, rfl, rfl, rfl, rfl, rfl, rfl, rfl, rfl, rfl, fun px py _ _ => reset_pixel px py,
    reset_key, fun _ => resetWith_peek_font [] State.reset,
    fun _ ha _ => resetWith_peek_fill [] State.reset ha (Nat.lt_or_ge _ _)⟩

end Sys2Proof.Machine
end
